-- ==== Sys2Proof/Word.lean ====
section
/-! DEFINITION. The word types of the block. -/

namespace Sys2Proof

/-- A 4-bit value: registers A and B, the program counter, the latches, opcodes and immediates
(R6, R11). Also an address of program memory, which has exactly 16 addresses (R30, R34). -/
abbrev Nibble := BitVec 4

/-- One word of program memory and one instruction: 8 bits (R30, R50). -/
abbrev Byte := BitVec 8

end Sys2Proof
end

