-- ==== Sys2Proof/Syntax.lean ====
section
/-! DEFINITION. The instructions: one constructor per row of spec/opcode_table.json, in the table's
order (R54). -/

namespace Sys2Proof

/-- One instruction. The immediate is the 4-bit unsigned field of R53. The five defined instructions
that ignore the low nibble, and the unassigned opcodes, carry no operand: every low nibble selects
the same instruction (R55, R110). -/
inductive Instr where
  /-- 0x0, `ADD A,im` (R70). -/
  | addAIm (im : Nibble)
  /-- 0x1, `MOV A,B` (R80). -/
  | movAB
  /-- 0x2, `IN A` (R90). -/
  | inA
  /-- 0x3, `MOV A,im` (R81). -/
  | movAIm (im : Nibble)
  /-- 0x4, `MOV B,A` (R82). -/
  | movBA
  /-- 0x5, `ADD B,im` (R71). -/
  | addBIm (im : Nibble)
  /-- 0x6, `IN B` (R91). -/
  | inB
  /-- 0x7, `MOV B,im` (R83). -/
  | movBIm (im : Nibble)
  /-- 0x8, unassigned: a no-op that advances PC (R56, R110). -/
  | unassigned8
  /-- 0x9, `OUT B` (R92). -/
  | outB
  /-- 0xA, unassigned (R56, R110). -/
  | unassignedA
  /-- 0xB, `OUT im` (R93). -/
  | outIm (im : Nibble)
  /-- 0xC, unassigned (R56, R110). -/
  | unassignedC
  /-- 0xD, unassigned (R56, R110). -/
  | unassignedD
  /-- 0xE, `JNC im` (R100). -/
  | jncIm (im : Nibble)
  /-- 0xF, `JMP im` (R101). -/
  | jmpIm (im : Nibble)
deriving DecidableEq, Repr

end Sys2Proof
end

