-- ==== Sys2Proof/WellFormed.lean ====
section
/-! DEFINITION. Well-formedness. An immediate is in [0,15] (R53) and an instruction is one byte (R50).
Both hold by construction of a term of `Instr` (R11 asks for 4-bit types), so the checks bite on raw
numbers: an immediate or a table word before it becomes a `Nibble` or a `Byte`. -/

namespace Sys2Proof

/-- R53: an immediate is a 4-bit unsigned value, in [0,15]. -/
def immediateInRange (n : Nat) : Bool := decide (n ≤ 15)

/-- R50: an instruction is one 8-bit byte, so a word given in `nbits` bits has at most eight, and its
value fits in them. -/
def tableWordInRange (nbits w : Nat) : Bool := decide (nbits ≤ 8) && decide (w < 2 ^ nbits)

/-- Every operand of the instruction is in the range its encoding admits (R53). -/
def Instr.wellFormed : Instr → Bool
  | .addAIm im => immediateInRange im.toNat
  | .movAB => true
  | .inA => true
  | .movAIm im => immediateInRange im.toNat
  | .movBA => true
  | .addBIm im => immediateInRange im.toNat
  | .inB => true
  | .movBIm im => immediateInRange im.toNat
  | .unassigned8 => true
  | .outB => true
  | .unassignedA => true
  | .outIm im => immediateInRange im.toNat
  | .unassignedC => true
  | .unassignedD => true
  | .jncIm im => immediateInRange im.toNat
  | .jmpIm im => immediateInRange im.toNat

end Sys2Proof
end

