-- ==== Sys2Proof/Decode.lean ====
section
/-! DEFINITION. The decoder and, after it, the encoder. Decoding is total: no byte is refused (R62). -/

namespace Sys2Proof

/-- The opcode field `instr[7:4]` (R51, R52). -/
def opField (instr : Byte) : Nibble := instr.extractLsb' 4 4

/-- The immediate field `instr[3:0]` (R51, R52, R53). -/
def imField (instr : Byte) : Nibble := instr.extractLsb' 0 4

/-- The opcode map R54, on the four bits of `op` from the highest down. -/
def decodeFields (op im : Nibble) : Instr :=
  match op.getLsbD 3, op.getLsbD 2, op.getLsbD 1, op.getLsbD 0 with
  | false, false, false, false => .addAIm im     -- 0x0
  | false, false, false, true  => .movAB         -- 0x1
  | false, false, true,  false => .inA           -- 0x2
  | false, false, true,  true  => .movAIm im     -- 0x3
  | false, true,  false, false => .movBA         -- 0x4
  | false, true,  false, true  => .addBIm im     -- 0x5
  | false, true,  true,  false => .inB           -- 0x6
  | false, true,  true,  true  => .movBIm im     -- 0x7
  | true,  false, false, false => .unassigned8   -- 0x8
  | true,  false, false, true  => .outB          -- 0x9
  | true,  false, true,  false => .unassignedA   -- 0xA
  | true,  false, true,  true  => .outIm im      -- 0xB
  | true,  true,  false, false => .unassignedC   -- 0xC
  | true,  true,  false, true  => .unassignedD   -- 0xD
  | true,  true,  true,  false => .jncIm im      -- 0xE
  | true,  true,  true,  true  => .jmpIm im      -- 0xF

/-- The instruction a byte is: a pure, total function of the byte (R52, R62). -/
def decode (instr : Byte) : Instr := decodeFields (opField instr) (imField instr)

/-- The byte of an instruction that the opcode table numbers `w` in `nbits` bits; the bits above are
zero. One byte is the whole instruction (R50). -/
def tableByte (nbits w : Nat) : Byte := BitVec.ofNat 8 (w % 2 ^ nbits)

/-- The instruction the decoder reads from a word of the opcode table; none where the number is not
one byte (R50). -/
def decodeTableWord (nbits w : Nat) : Option Instr :=
  if tableWordInRange nbits w then some (decode (tableByte nbits w)) else none

/-- The opcode of an instruction (R54). -/
def opcodeOf : Instr → Nibble
  | .addAIm _    => 0x0#4
  | .movAB       => 0x1#4
  | .inA         => 0x2#4
  | .movAIm _    => 0x3#4
  | .movBA       => 0x4#4
  | .addBIm _    => 0x5#4
  | .inB         => 0x6#4
  | .movBIm _    => 0x7#4
  | .unassigned8 => 0x8#4
  | .outB        => 0x9#4
  | .unassignedA => 0xA#4
  | .outIm _     => 0xB#4
  | .unassignedC => 0xC#4
  | .unassignedD => 0xD#4
  | .jncIm _     => 0xE#4
  | .jmpIm _     => 0xF#4

/-- The low nibble of an instruction's word: the immediate, or 0 where the nibble is ignored, as R55
has an assembler write (D10). For an unassigned opcode, whose nibble R110 ignores too, the 0 is the
model's (log entry 3). -/
def lowNibbleOf : Instr → Nibble
  | .addAIm im   => im
  | .movAB       => 0
  | .inA         => 0
  | .movAIm im   => im
  | .movBA       => 0
  | .addBIm im   => im
  | .inB         => 0
  | .movBIm im   => im
  | .unassigned8 => 0
  | .outB        => 0
  | .unassignedA => 0
  | .outIm im    => im
  | .unassignedC => 0
  | .unassignedD => 0
  | .jncIm im    => im
  | .jmpIm im    => im

/-- The word of an instruction, the opcode in the high nibble (R51). -/
def encode (i : Instr) : Byte := opcodeOf i ++ lowNibbleOf i

end Sys2Proof
end

