-- ==== Sys2Proof/Machine/State.lean ====
section
/-! DEFINITION. The block's state, the reasons a step could stop, and the state after reset. -/

namespace Sys2Proof.Machine

/-- Program memory: (address, byte) pairs in one canonical form, addresses strictly rising and no
entry equal to what an unlisted address reads as (`Memory.unlisted` in Machine/Ops.lean). -/
abbrev Memory := List Host.Cell

/-- The block's architectural state, "exactly the source's Machine, and nothing else" (R10, R18 to
R20). The widths hold the range invariant R11 by construction. -/
structure State where
  /-- memory[0..15], 16 words of 8 bits (R30). -/
  mem : Memory
  /-- General register A (R13). -/
  a : Nibble
  /-- General register B (R13). -/
  b : Nibble
  /-- The carry flag C, one bit, the only flag (R14). -/
  c : Bool
  /-- The program counter (R15). -/
  pc : Nibble
  /-- IN_line, the input latch (R16). -/
  inLine : Nibble
  /-- OUT_line, the output latch (R17). -/
  outLine : Nibble
deriving DecidableEq, Repr

/-- The faults of a step: none. The block raises no exception and no byte faults (R62, R120), and an
address outside 0 to 15 cannot be formed from a 4-bit PC (R36, R38). Log entry 4. -/
inductive Fault where
deriving DecidableEq, Repr

/-- The refusals of a step. -/
inductive Refusal where
  /-- Raised by a refused arm of `exec` for an instruction without a meaning. No arm raises it: every
  instruction of the table has its meaning. Safe. -/
  | notModelled (mnemonic : String)
deriving DecidableEq, Repr

/-- The machine right after reset with the empty program image: every element zero (R10, R140, R141)
and every word of memory 0x00 (R45, vector L1). `powerOn` in Machine/Loader.lean is the same for any
image; log entry 1. -/
def State.reset : State where
  mem := []
  a := 0
  b := 0
  c := false
  pc := 0
  inLine := 0
  outLine := 0

end Sys2Proof.Machine
end

