-- ==== Sys2Proof/Machine/Ops.lean ====
section
/-! DEFINITION. The named operations over memory and registers. There is no operation for taking an
exception or returning from one: the block has neither (R120, R123, R124). -/

namespace Sys2Proof.Machine

/-! ### Program memory -/

/-- What an address without an entry reads as: 0x00, the value the loader leaves beyond the image
(R45). Log entry 2. -/
def Memory.unlisted : Byte := 0x00#8

/-- `memory[a]` (R9 MemRead, R30). -/
def Memory.read : Memory → Nibble → Byte
  | [], _ => Memory.unlisted
  | (k, v) :: rest, a => if k = a.toNat then v else Memory.read rest a

/-- Put byte `v` at address `k`, keeping the canonical form: in address order, and with no entry where
`v` is what an unlisted address reads as. -/
def Memory.insertCell (k : Nat) (v : Byte) : Memory → Memory
  | [] => if v = Memory.unlisted then [] else [(k, v)]
  | (k', v') :: rest =>
    if k < k' then
      if v = Memory.unlisted then (k', v') :: rest else (k, v) :: (k', v') :: rest
    else if k = k' then
      if v = Memory.unlisted then rest else (k, v) :: rest
    else (k', v') :: Memory.insertCell k v rest

/-- `memory[a] <- v`. Only the host's load and reset use it: no instruction writes memory (R32). -/
def Memory.write (m : Memory) (a : Nibble) (v : Byte) : Memory := Memory.insertCell a.toNat v m

/-- The entries are at rising addresses from `lo` on, inside the 16 addresses of R30, and none equals
what an unlisted address reads as. -/
def Memory.wfFrom (lo : Nat) : Memory → Bool
  | [] => true
  | (k, v) :: rest =>
    decide (lo ≤ k) && decide (k < 16) && decide (v ≠ Memory.unlisted) && Memory.wfFrom (k + 1) rest

/-- The memory is in canonical form. -/
def Memory.wf (m : Memory) : Bool := Memory.wfFrom 0 m

/-! ### Registers, flag and latches -/

/-- `A <- v`. -/
def State.setA (s : State) (v : Nibble) : State := { s with a := v }

/-- `B <- v`. -/
def State.setB (s : State) (v : Nibble) : State := { s with b := v }

/-- `C <- v`. -/
def State.setC (s : State) (v : Bool) : State := { s with c := v }

/-- `PC <- target`. -/
def State.setPc (s : State) (target : Nibble) : State := { s with pc := target }

/-- `IN <- v`: the host's set-input; no instruction does it (R16). -/
def State.setInLine (s : State) (v : Nibble) : State := { s with inLine := v }

/-- `OUT <- v`. -/
def State.setOutLine (s : State) (v : Nibble) : State := { s with outLine := v }

/-- Replace the whole memory: the host's load and reset only (R32). -/
def State.setMem (s : State) (m : Memory) : State := { s with mem := m }

/-! ### Program counter and fetch -/

/-- `(PC + 1)[3:0]`: PC 15 is followed by PC 0 (R61). -/
def pcPlusOne (pc : Nibble) : Nibble := (pc.setWidth 5 + 1#5).extractLsb' 0 4

/-- `PC <- (PC + 1)[3:0]`, nothing else (R61). -/
def State.advance (s : State) : State := s.setPc (pcPlusOne s.pc)

/-- The fetch `instr <- MemRead(PC, 1)` (R33). It changes nothing (R37). -/
def fetch (s : State) : Byte := s.mem.read s.pc

/-- Store a byte where the next step fetches, `memory[PC]`; stands for a host load (log entry 1). -/
def placeAtPc (s : State) (v : Byte) : State := s.setMem (s.mem.write s.pc v)

end Sys2Proof.Machine
end

