-- ==== Sys2Proof/Machine/Operands.lean ====
section
/-! DEFINITION. The operand forms: what an instruction can read as data and what it can write (R10,
R13, R16, R17, R53). C, PC and memory are operands of no data transfer (R14, R34). -/

namespace Sys2Proof.Machine

/-- A source of a data transfer. -/
inductive Source where
  /-- Register A. -/
  | regA
  /-- Register B. -/
  | regB
  /-- The input latch IN_line (R16). -/
  | inLine
  /-- The immediate of the instruction (R53). -/
  | imm (v : Nibble)
deriving DecidableEq, Repr

/-- A destination of a data transfer. -/
inductive Dest where
  /-- Register A. -/
  | regA
  /-- Register B. -/
  | regB
  /-- The output latch OUT_line (R17). -/
  | outLine
deriving DecidableEq, Repr

/-- The value of a source in the state before the step (R60). Reading changes nothing (R37). -/
def Source.value (src : Source) (s : State) : Nibble :=
  match src with
  | .regA => s.a
  | .regB => s.b
  | .inLine => s.inLine
  | .imm v => v

/-- Write a value to a destination, changing nothing else. -/
def Dest.store (d : Dest) (v : Nibble) (s : State) : State :=
  match d with
  | .regA => s.setA v
  | .regB => s.setB v
  | .outLine => s.setOutLine v

end Sys2Proof.Machine
end

