-- ==== Sys2Proof/Machine/Flags.lean ====
section
/-! DEFINITION. The 4-bit adder and the carry flag, the only flag of the block (R14, R72, R73). -/

namespace Sys2Proof.Machine

/-- `sum <- zext_5(x) + zext_5(y)`, 5 bits, no carry-in (R70, R72). -/
def adderSum (x y : Nibble) : BitVec 5 := x.setWidth 5 + y.setWidth 5

/-- The adder's result `sum[3:0]` (R72). -/
def adderResult (x y : Nibble) : Nibble := (adderSum x y).extractLsb' 0 4

/-- The adder's carry-out `sum[4]` (R72). -/
def adderCarry (x y : Nibble) : Bool := (adderSum x y).getLsbD 4

/-- The carry after a MOV, IN or OUT: always 0, whatever it was (R73). -/
def carryAfterTransfer : Bool := false

/-- The jump condition of JNC: C = 0 (R100). -/
def noCarry (s : State) : Bool := !s.c

end Sys2Proof.Machine
end

