-- ==== Sys2Proof/Machine/Effects.lean ====
section
/-! DEFINITION. The four shared effects the meanings are made of. All reads see the state before the
step; the writes take effect together (R60). -/

namespace Sys2Proof.Machine

/-- A MOV, IN or OUT: copy a source to a destination, `C <- 0`, advance PC (R73, R80 to R83, R90 to
R93). -/
def transfer (d : Dest) (src : Source) (s : State) : State :=
  ((d.store (src.value s) s).setC carryAfterTransfer).advance

/-- An ADD: destination and first operand are one register, C is the adder's carry-out, advance PC
(R70, R71). -/
def addInto (d : Dest) (x : Source) (im : Nibble) (s : State) : State :=
  ((d.store (adderResult (x.value s) im) s).setC (adderCarry (x.value s) im)).advance

/-- A jump to an absolute address; C is unchanged (R101, R102). -/
def jump (target : Nibble) (s : State) : State := s.setPc target

/-- A jump taken if C = 0, else PC advances; C is unchanged (R100). -/
def jumpIfNoCarry (target : Nibble) (s : State) : State :=
  if noCarry s then jump target s else s.advance

end Sys2Proof.Machine
end

