-- ==== Sys2Proof/Machine/Arith.lean ====
section
/-! DEFINITION. The add instructions (40_arith.md). -/

namespace Sys2Proof.Machine

/-- `ADD A,im` (R70). -/
def execAddAIm (im : Nibble) (s : State) : Host.Outcome State Fault Refusal := .next (addInto .regA .regA im s)

/-- `ADD B,im` (R71). -/
def execAddBIm (im : Nibble) (s : State) : Host.Outcome State Fault Refusal := .next (addInto .regB .regB im s)

end Sys2Proof.Machine
end

