-- ==== Sys2Proof/Machine/Branch.lean ====
section
/-! DEFINITION. Control transfer (43_branch.md). -/

namespace Sys2Proof.Machine

/-- `JNC im` (R100). -/
def execJncIm (im : Nibble) (s : State) : Host.Outcome State Fault Refusal := .next (jumpIfNoCarry im s)

/-- `JMP im` (R101). -/
def execJmpIm (im : Nibble) (s : State) : Host.Outcome State Fault Refusal := .next (jump im s)

end Sys2Proof.Machine
end

