-- ==== Sys2Proof/Machine/InOut.lean ====
section
/-! DEFINITION. Input and output (42_io.md). IN_line is read as it stands at the start of the step and
never written; OUT_line changes at the end of an OUT step (R94). -/

namespace Sys2Proof.Machine

/-- `IN A` (R90). -/
def execInA (s : State) : Host.Outcome State Fault Refusal := .next (transfer .regA .inLine s)

/-- `IN B` (R91). -/
def execInB (s : State) : Host.Outcome State Fault Refusal := .next (transfer .regB .inLine s)

/-- `OUT B` (R92). -/
def execOutB (s : State) : Host.Outcome State Fault Refusal := .next (transfer .outLine .regB s)

/-- `OUT im` (R93). -/
def execOutIm (im : Nibble) (s : State) : Host.Outcome State Fault Refusal := .next (transfer .outLine (.imm im) s)

end Sys2Proof.Machine
end

