-- ==== Sys2Proof/Machine/Move.lean ====
section
/-! DEFINITION. The register transfers (41_move.md). -/

namespace Sys2Proof.Machine

/-- `MOV A,B` (R80). -/
def execMovAB (s : State) : Host.Outcome State Fault Refusal := .next (transfer .regA .regB s)

/-- `MOV A,im` (R81). -/
def execMovAIm (im : Nibble) (s : State) : Host.Outcome State Fault Refusal := .next (transfer .regA (.imm im) s)

/-- `MOV B,A` (R82). -/
def execMovBA (s : State) : Host.Outcome State Fault Refusal := .next (transfer .regB .regA s)

/-- `MOV B,im` (R83). -/
def execMovBIm (im : Nibble) (s : State) : Host.Outcome State Fault Refusal := .next (transfer .regB (.imm im) s)

end Sys2Proof.Machine
end

