-- ==== Sys2Proof/Machine/Unassigned.lean ====
section
/-! DEFINITION. The unassigned opcodes (44_unassigned.md): each advances PC and changes nothing else,
C included (R110, 90_conflicts.md C3). Nothing is logged in the block (R111, C4). -/

namespace Sys2Proof.Machine

/-- Opcode 0x8 (R110). -/
def execUnassigned8 (s : State) : Host.Outcome State Fault Refusal := .next s.advance

/-- Opcode 0xA (R110). -/
def execUnassignedA (s : State) : Host.Outcome State Fault Refusal := .next s.advance

/-- Opcode 0xC (R110). -/
def execUnassignedC (s : State) : Host.Outcome State Fault Refusal := .next s.advance

/-- Opcode 0xD (R110). -/
def execUnassignedD (s : State) : Host.Outcome State Fault Refusal := .next s.advance

end Sys2Proof.Machine
end

