-- ==== Sys2Proof/Machine/Dispatch.lean ====
section
/-! DEFINITION. One arm per instruction, in the opcode table's order (R54, R60). -/

namespace Sys2Proof.Machine

def exec (i : Instr) (s : State) : Host.Outcome State Fault Refusal :=
  match i with
  | .addAIm im => Sys2Proof.Machine.execAddAIm im s
  | .movAB => Sys2Proof.Machine.execMovAB s
  | .inA => Sys2Proof.Machine.execInA s
  | .movAIm im => Sys2Proof.Machine.execMovAIm im s
  | .movBA => Sys2Proof.Machine.execMovBA s
  | .addBIm im => Sys2Proof.Machine.execAddBIm im s
  | .inB => Sys2Proof.Machine.execInB s
  | .movBIm im => Sys2Proof.Machine.execMovBIm im s
  | .unassigned8 => Sys2Proof.Machine.execUnassigned8 s
  | .outB => Sys2Proof.Machine.execOutB s
  | .unassignedA => Sys2Proof.Machine.execUnassignedA s
  | .outIm im => Sys2Proof.Machine.execOutIm im s
  | .unassignedC => Sys2Proof.Machine.execUnassignedC s
  | .unassignedD => Sys2Proof.Machine.execUnassignedD s
  | .jncIm im => Sys2Proof.Machine.execJncIm im s
  | .jmpIm im => Sys2Proof.Machine.execJmpIm im s

end Sys2Proof.Machine
end

