-- ==== Sys2Proof/Machine/Step.lean ====
section
/-! DEFINITION. The step, and the placing of a word where the next step fetches. -/

namespace Sys2Proof.Machine

/-- One step: fetch `memory[PC]` from the state before the step, decode it, execute it (R60). -/
def step (s : State) : Host.Outcome State Fault Refusal := exec (decode (fetch s)) s

/-- The state with the byte that the opcode table numbers `w` in `nbits` bits stored at `memory[PC]`,
where `step` fetches next (R33); nothing else changes. Log entry 1. -/
def State.withFetchWord (s : State) (nbits w : Nat) : State := placeAtPc s (tableByte nbits w)

end Sys2Proof.Machine
end

