-- ==== Sys2Proof/Config.lean ====
section
/-! DEFINITION. What the spec leaves to the implementation. Every item is a parameter of the HOST;
the block itself has none (R6, 93_implementation_defined.md). Each is opaque: no statement can rest
on its value. -/

namespace Sys2Proof

/-- The host's modes (R131). They decide when steps happen; no instruction sees them (R127). -/
inductive HostMode where
  | manual
  | auto
deriving DecidableEq, Repr

/-- Whether a step taken in Auto mode increments the host's cycle counter: the spec's parameter
`auto_counts_cycles` (R128, D18, U6). Log entry 5, safe. -/
opaque Config.autoCountsCycles : Bool

/-- Whether the step key pressed in Auto mode makes the step of that iteration count where an Auto step
by itself does not. In no reading does the key add a step (U11): this is all of its effect that stays
open. Log entry 6, safe. -/
opaque Config.stepKeyCountsInAuto : Bool

/-- Whether the status line shows the byte at the new PC (true) or the byte just executed (false)
(R135, U10). Log entry 7, safe. -/
opaque Config.statusShowsNextByte : Bool

/-- The text `UNKNOWN <hex>` the disassembler writes for an unassigned byte; its exact form is not
given (R58, R111, U7). Log entry 7, safe. -/
opaque Config.unknownText : Byte → List Char

/-- The Auto-mode delay `auto_delay`, in a unit the spec does not give (R148, U5, D23).
Log entry 8, safe. -/
opaque Config.autoDelay : Nat

end Sys2Proof
end

