-- ==== Sys2Proof/Machine/Assembly.lean ====
section
/-! DEFINITION. Assembly text (R58, R59, D11) and the disassembler's text (R58, R111). Texts are lists
of characters. -/

namespace Sys2Proof.Machine

/-- How an immediate is written: decimal 0 to 15, or `0b` and four binary digits (R58). -/
inductive Radix where
  | decimal
  | binary
deriving DecidableEq, Repr

/-- A digit's character. -/
def digitChar (n : Nat) : Char := Char.ofNat (48 + n)

/-- An immediate's text (R58). -/
def immText (r : Radix) (im : Nibble) : List Char :=
  match r with
  | .decimal =>
    if im.toNat < 10 then [digitChar im.toNat] else [digitChar (im.toNat / 10), digitChar (im.toNat % 10)]
  | .binary =>
    ['0', 'b', digitChar (im.getLsbD 3).toNat, digitChar (im.getLsbD 2).toNat,
     digitChar (im.getLsbD 1).toNat, digitChar (im.getLsbD 0).toNat]

/-- An instruction's text: its mnemonic of R54 with `im` replaced by the immediate; none for an
unassigned opcode, which has no mnemonic to assemble (R58). -/
def asmText (r : Radix) : Instr → Option (List Char)
  | .addAIm im => some (['A', 'D', 'D', ' ', 'A', ','] ++ immText r im)
  | .movAB => some ['M', 'O', 'V', ' ', 'A', ',', 'B']
  | .inA => some ['I', 'N', ' ', 'A']
  | .movAIm im => some (['M', 'O', 'V', ' ', 'A', ','] ++ immText r im)
  | .movBA => some ['M', 'O', 'V', ' ', 'B', ',', 'A']
  | .addBIm im => some (['A', 'D', 'D', ' ', 'B', ','] ++ immText r im)
  | .inB => some ['I', 'N', ' ', 'B']
  | .movBIm im => some (['M', 'O', 'V', ' ', 'B', ','] ++ immText r im)
  | .unassigned8 => none
  | .outB => some ['O', 'U', 'T', ' ', 'B']
  | .unassignedA => none
  | .outIm im => some (['O', 'U', 'T', ' '] ++ immText r im)
  | .unassignedC => none
  | .unassignedD => none
  | .jncIm im => some (['J', 'N', 'C', ' '] ++ immText r im)
  | .jmpIm im => some (['J', 'M', 'P', ' '] ++ immText r im)

/-- The 16 values of an immediate. -/
def allImmediates : List Nibble := (List.range 16).map (BitVec.ofNat 4)

/-- Every instruction of the twelve defined opcodes, with every immediate (R54). -/
def definedInstrs : List Instr :=
  [.movAB, .inA, .movBA, .inB, .outB] ++ allImmediates.map .addAIm ++ allImmediates.map .movAIm ++
  allImmediates.map .addBIm ++ allImmediates.map .movBIm ++ allImmediates.map .outIm ++
  allImmediates.map .jncIm ++ allImmediates.map .jmpIm

/-- The instruction a text assembles to, if it is one instruction's text in either notation.
Log entry 10. -/
def assembleInstr (text : List Char) : Option Instr :=
  definedInstrs.find? fun i =>
    decide (asmText .decimal i = some text) || decide (asmText .binary i = some text)

/-- The byte a text assembles to; 0 stands in an ignored nibble (R55). -/
def assemble (text : List Char) : Option Byte := (assembleInstr text).map encode

/-- The disassembler's text of a byte: display only, it alters no state (R111). -/
def disassemble (r : Radix) (b : Byte) : List Char :=
  (asmText r (decode b)).getD (Config.unknownText b)

end Sys2Proof.Machine
end

