-- ==== Sys2Proof/Machine/Loader.lean ====
section
/-! DEFINITION. Loading the program image, power-on and reset (R45, R140, R141). The image is an
argument of a run, not state of the block (R22). -/

namespace Sys2Proof.Machine

/-- The byte the loader puts at address `n`: `image[n]`, or 0x00 beyond the image (R45). -/
def imageByte (image : List Byte) (n : Nat) : Byte := image.getD n 0x00#8

/-- Load addresses 0 to `n - 1` (R45's loop). -/
def Memory.loadUpTo (image : List Byte) : Nat → Memory → Memory
  | 0, m => m
  | n + 1, m => (Memory.loadUpTo image n m).write (BitVec.ofNat 4 n) (imageByte image n)

/-- Load all 16 addresses; image bytes beyond the sixteenth are ignored (R45). -/
def Memory.load (image : List Byte) (m : Memory) : Memory := Memory.loadUpTo image 16 m

/-- The power-on state: created zero-initialized, then loaded from the image (R141). -/
def powerOn (image : List Byte) : State := State.reset.setMem (State.reset.mem.load image)

/-- Reset with the run's image: every register, the flag and both latches 0, and the image loaded
again over the memory (R140). -/
def resetMachine (image : List Byte) (s : State) : State :=
  ((((((s.setA 0).setB 0).setC false).setPc 0).setInLine 0).setOutLine 0).setMem (s.mem.load image)

/-- What reading the program file gives the host (R45). -/
inductive LoadResult where
  /-- The file's bytes. -/
  | loaded (bytes : List Byte)
  /-- `FileNotFound`. -/
  | fileNotFound
  /-- `ReadError`, with whatever had been read. -/
  | readError (partly : List Byte)
deriving DecidableEq, Repr

/-- The first state of a run; none after a load failure, which is fatal to startup (R45, D21).
Log entry 13. -/
def startup : LoadResult → Option State
  | .loaded bytes => some (powerOn bytes)
  | .fileNotFound => none
  | .readError _ => none

end Sys2Proof.Machine
end

