-- ==== Sys2Proof/Machine/Interface.lean ====
section
/-! DEFINITION. The block's boundary signals at one active edge of `clk` (R46, the spec's own choice
D3; log entry 15). -/

namespace Sys2Proof.Machine

/-- The input signals sampled at an edge, but for `imem_data`, which is a function of the state. -/
structure Inputs where
  rst : Bool
  stepEn : Bool
  inWe : Bool
  inData : Nibble
deriving DecidableEq, Repr

/-- The output signals. -/
structure Outputs where
  imemAddr : Nibble
  outQ : Nibble
  aQ : Nibble
  bQ : Nibble
  pcQ : Nibble
  cQ : Bool
  inQ : Nibble
deriving DecidableEq, Repr

/-- Each output equals a state element (R46). -/
def outputs (s : State) : Outputs where
  imemAddr := s.pc
  outQ := s.outLine
  aQ := s.a
  bQ := s.b
  pcQ := s.pc
  cQ := s.c
  inQ := s.inLine

/-- `imem_data`: `memory[imem_addr]`, read within the same step (R46). -/
def imemData (s : State) : Byte := s.mem.read (outputs s).imemAddr

/-- One active edge: `rst` has priority over a step, and a step over an input write (R46, R122). -/
def edge (image : List Byte) (p : Inputs) (s : State) : Host.Outcome State Fault Refusal :=
  if p.rst then .next (resetMachine image s)
  else if p.stepEn then step s
  else if p.inWe then .next (s.setInLine p.inData)
  else .next s

end Sys2Proof.Machine
end

