-- ==== Sys2Proof/Machine/ControlLoop.lean ====
section
/-! DEFINITION. The host: the source's ControlLoop, which steps, feeds and resets the block between
steps (R131 to R134). Its state is no state of the block (R20, R22). -/

namespace Sys2Proof.Machine

/-- The host's own state beside the block's (R20, R131). -/
structure ControlLoop where
  /-- The block. -/
  machine : State
  /-- Manual or Auto (R131). -/
  mode : HostMode
  /-- The cycle counter, of no stated width (R128, log entry 5). Its value at the start of a run is log
  entry 16. -/
  cycles : Nat
  /-- The original program image, kept for reset (R140). -/
  image : List Byte
  /-- False once the host has quit (R131, R134). -/
  running : Bool
deriving DecidableEq, Repr

/-- One host action of R131's table. -/
inductive HostCommand where
  | step
  | enterAuto
  | enterManual
  | dumpMemory
  | setInput (text : List Char)
  | reset
  | help
  | quit
  | otherKey
deriving DecidableEq, Repr

/-- The command of a key, in either case; `text` is what follows the set-input key (R131).
The character of the Enter key is log entry 11. -/
def commandOfKey (key : Char) (text : List Char) : HostCommand :=
  if key = '\n' then .step
  else if key = 'a' ∨ key = 'A' then .enterAuto
  else if key = 'm' ∨ key = 'M' then .enterManual
  else if key = 's' ∨ key = 'S' then .dumpMemory
  else if key = 'i' ∨ key = 'I' then .setInput text
  else if key = 'r' ∨ key = 'R' then .reset
  else if key = 'h' ∨ key = 'H' then .help
  else if key = 'q' ∨ key = 'Q' then .quit
  else .otherKey

/-! ### Set-input (R132) -/

/-- The character is '0' or '1'. -/
def isBinaryDigit (ch : Char) : Bool := decide (ch = '0') || decide (ch = '1')

/-- The character is '0' to '9'. -/
def isDecimalDigit (ch : Char) : Bool := decide (48 ≤ ch.toNat) && decide (ch.toNat ≤ 57)

/-- The value of a text of digits in a base, the first digit the most significant. -/
def digitsValue (base : Nat) (text : List Char) : Nat :=
  text.foldl (fun acc ch => acc * base + (ch.toNat - 48)) 0

/-- A value in [0,15] is accepted, any other rejected (R132). -/
def acceptInput (n : Nat) : Option Nibble :=
  if immediateInRange n then some (BitVec.ofNat 4 n) else none

/-- R132's `parse`: four characters are binary only, any other length decimal only. Log entry 9. -/
def parseInput (text : List Char) : Option Nibble :=
  if text.length = 4 then
    if text.all isBinaryDigit then acceptInput (digitsValue 2 text) else none
  else if !text.isEmpty && text.all isDecimalDigit then acceptInput (digitsValue 10 text)
  else none

/-- Set-input: an accepted value becomes IN_line, a rejected text changes nothing (R131, R132). -/
def setInputText (text : List Char) (s : State) : State :=
  match parseInput text with
  | some v => s.setInLine v
  | none => s

/-! ### The actions -/

/-- One step of the block by the host; the cycle counter goes up if `counts`. -/
def ControlLoop.stepMachine (counts : Bool) (l : ControlLoop) : Host.Outcome ControlLoop Fault Refusal :=
  match Sys2Proof.Machine.step l.machine with
  | .next m => .next { l with machine := m, cycles := if counts then l.cycles + 1 else l.cycles }
  | .fault r => .fault r
  | .refused r => .refused r

/-- The step key in Auto mode: no step beyond the one the iteration takes anyway (R131, U11). At most it
makes that step count, once (R128). Log entry 6. -/
def ControlLoop.stepKeyInAuto (l : ControlLoop) : ControlLoop :=
  { l with cycles := if Config.stepKeyCountsInAuto && !Config.autoCountsCycles then l.cycles + 1 else l.cycles }

/-- One host action (R131). The key of the mode the host is in already leaves it there, and the step key
has its step in Manual mode only (U11, log entry 6). What reset and quit leave is log entry 11. -/
def ControlLoop.perform (cmd : HostCommand) (l : ControlLoop) : Host.Outcome ControlLoop Fault Refusal :=
  match cmd with
  | .step =>
    match l.mode with
    | .manual => l.stepMachine true
    | .auto => .next l.stepKeyInAuto
  | .enterAuto => .next { l with mode := .auto }
  | .enterManual => .next { l with mode := .manual }
  | .dumpMemory => .next l
  | .setInput text => .next { l with machine := setInputText text l.machine }
  | .reset => .next { l with machine := resetMachine l.image l.machine, cycles := 0 }
  | .help => .next l
  | .quit => .next { l with running := false }
  | .otherKey => .next l

/-- The action of the key polled in an iteration, if there is one. -/
def ControlLoop.poll (key : Option HostCommand) (l : ControlLoop) : Host.Outcome ControlLoop Fault Refusal :=
  match key with
  | some cmd => l.perform cmd
  | none => .next l

/-- One iteration of the loop: in Auto mode one step, the pause and then the poll; in Manual mode the
poll alone; nothing after quit (R131, R134). Log entries 11 and 12. -/
def ControlLoop.iterate (key : Option HostCommand) (l : ControlLoop) : Host.Outcome ControlLoop Fault Refusal :=
  if l.running then
    match l.mode with
    | .manual => l.poll key
    | .auto =>
      match l.stepMachine Config.autoCountsCycles with
      | .next l' => l'.poll key
      | .fault r => .fault r
      | .refused r => .refused r
  else .next l

/-- The wall-clock pause of an iteration, which changes no state (R136, R148). -/
def ControlLoop.pause (l : ControlLoop) : Nat :=
  match l.mode with
  | .manual => 0
  | .auto => Config.autoDelay

/-- A run of the host: one iteration for each polled key (R131, R134). -/
def ControlLoop.hostRun : List (Option HostCommand) → ControlLoop → Host.Outcome ControlLoop Fault Refusal
  | [], l => .next l
  | key :: keys, l =>
    match l.iterate key with
    | .next l' => ControlLoop.hostRun keys l'
    | .fault r => .fault r
    | .refused r => .refused r

/-- The host at the start of a run, in Manual mode (R131); none after a load failure (R45, D21, log
entry 13). DESIGN CHOICE, unsafe: the cycle counter starts at 0. The spec gives it 0 at the reset
command only (R128, R140), and R141 speaks of the block's state (log entry 16). -/
def ControlLoop.start (r : LoadResult) : Option ControlLoop :=
  match r with
  | .loaded bytes =>
    (startup r).map fun m => { machine := m, mode := .manual, cycles := 0, image := bytes, running := true }
  | .fileNotFound => none
  | .readError _ => none

/-! ### What the host shows (R131, R135) -/

/-- The memory dump: all 16 cells (R131). -/
def memoryDump (s : State) : List Byte := allImmediates.map s.mem.read

/-- The status line (R135). -/
structure StatusLine where
  cycle : Nat
  pc : Nibble
  rawByte : Byte
  disassembly : List Char
  a : Nibble
  b : Nibble
  outLine : Nibble
  inLine : Nibble
  c : Bool
deriving DecidableEq, Repr

/-- The status line after a step, given the host before and after it; the byte shown is one of the two
that R135 leaves open (log entry 7). -/
def statusLine (r : Radix) (before after : ControlLoop) : StatusLine :=
  let shown := if Config.statusShowsNextByte then fetch after.machine else fetch before.machine
  { cycle := after.cycles
    pc := after.machine.pc
    rawByte := shown
    disassembly := disassemble r shown
    a := after.machine.a
    b := after.machine.b
    outLine := after.machine.outLine
    inLine := after.machine.inLine
    c := after.machine.c }

end Sys2Proof.Machine
end

