-- ==== Sys2Proof/Safety.lean ====
section
/-! DEFINITION. The terms the statements use: frames, the instruction classes of R10 and R73, and the
memory invariant. -/

namespace Sys2Proof.Machine

/-- Every byte of memory reads as before. -/
def SameMemory (s t : State) : Prop := ∀ addr : Nibble, t.mem.read addr = s.mem.read addr

/-- `PC <- (PC + 1) mod 16` (R61), on numbers. -/
def PcAdvanced (s t : State) : Prop := t.pc.toNat = (s.pc.toNat + 1) % 16

/-- The two states agree on everything but, perhaps, IN_line. -/
def AgreeButInLine (s t : State) : Prop :=
  t.a = s.a ∧ t.b = s.b ∧ t.c = s.c ∧ t.pc = s.pc ∧ t.outLine = s.outLine ∧ SameMemory s t

/-- The two states agree on everything but, perhaps, OUT_line. -/
def AgreeButOutLine (s t : State) : Prop :=
  t.a = s.a ∧ t.b = s.b ∧ t.c = s.c ∧ t.pc = s.pc ∧ t.inLine = s.inLine ∧ SameMemory s t

/-- The instruction the next step executes (R60). -/
def nextInstr (s : State) : Instr := decode (fetch s)

/-- The instructions R10 lists as writing A. -/
def writesA : Instr → Bool
  | .addAIm _ | .movAB | .inA | .movAIm _ => true
  | .movBA | .addBIm _ | .inB | .movBIm _ | .unassigned8 | .outB | .unassignedA | .outIm _
  | .unassignedC | .unassignedD | .jncIm _ | .jmpIm _ => false

/-- The instructions R10 lists as writing B. -/
def writesB : Instr → Bool
  | .addBIm _ | .movBA | .inB | .movBIm _ => true
  | .addAIm _ | .movAB | .inA | .movAIm _ | .unassigned8 | .outB | .unassignedA | .outIm _
  | .unassignedC | .unassignedD | .jncIm _ | .jmpIm _ => false

/-- The instructions R10 lists as writing OUT_line. -/
def writesOut : Instr → Bool
  | .outB | .outIm _ => true
  | .addAIm _ | .movAB | .inA | .movAIm _ | .movBA | .addBIm _ | .inB | .movBIm _ | .unassigned8
  | .unassignedA | .unassignedC | .unassignedD | .jncIm _ | .jmpIm _ => false

/-- The instructions that read IN_line (R10, R16). -/
def readsIn : Instr → Bool
  | .inA | .inB => true
  | .addAIm _ | .movAB | .movAIm _ | .movBA | .addBIm _ | .movBIm _ | .unassigned8 | .outB
  | .unassignedA | .outIm _ | .unassignedC | .unassignedD | .jncIm _ | .jmpIm _ => false

/-- The instructions that leave C unchanged: JNC, JMP and the unassigned opcodes (R14, R73). -/
def keepsCarry : Instr → Bool
  | .jncIm _ | .jmpIm _ | .unassigned8 | .unassignedA | .unassignedC | .unassignedD => true
  | .addAIm _ | .movAB | .inA | .movAIm _ | .movBA | .addBIm _ | .inB | .movBIm _ | .outB
  | .outIm _ => false

/-- The instructions that clear C: MOV, IN and OUT (R14, R73). -/
def clearsCarry : Instr → Bool
  | .movAB | .inA | .movAIm _ | .movBA | .inB | .movBIm _ | .outB | .outIm _ => true
  | .addAIm _ | .addBIm _ | .jncIm _ | .jmpIm _ | .unassigned8 | .unassignedA | .unassignedC
  | .unassignedD => false

/-- The unassigned opcodes (R56). -/
def isUnassigned : Instr → Bool
  | .unassigned8 | .unassignedA | .unassignedC | .unassignedD => true
  | .addAIm _ | .movAB | .inA | .movAIm _ | .movBA | .addBIm _ | .inB | .movBIm _ | .outB
  | .outIm _ | .jncIm _ | .jmpIm _ => false

/-- The instructions that use the immediate field: the column "im used" of R54. -/
def usesImmediate : Instr → Bool
  | .addAIm _ | .movAIm _ | .addBIm _ | .movBIm _ | .outIm _ | .jncIm _ | .jmpIm _ => true
  | .movAB | .inA | .movBA | .inB | .outB | .unassigned8 | .unassignedA | .unassignedC
  | .unassignedD => false

/-- The memory is in canonical form and holds exactly the image, zero-padded, without the bytes beyond
the sixteenth (R32, R45). -/
def HoldsImage (image : List Byte) (s : State) : Prop :=
  s.mem.wf = true ∧ ∀ addr : Nibble, s.mem.read addr = image.getD addr.toNat 0

/-- `n` steps of the block, from any state. -/
def runSteps (n : Nat) (s : State) : Host.Outcome State Fault Refusal := Sys2Proof.core.run n s

end Sys2Proof.Machine
end

