-- ==== Sys2Proof/Certificates/Slice0/Obligations.lean ====
section
/-! DEFINITION. The statements for the provers, from the numbered rules of spec/. -/

open Sys2Proof Sys2Proof.Machine

/-- The byte 0000iiii decodes to ADD A,im, and for every immediate and every state ADD A,im completes:
A becomes (A + im) mod 16, C becomes 1 exactly when A + im > 15, PC becomes PC + 1 mod 16, and B,
IN_line, OUT_line and every byte of memory are unchanged. (R70) -/
def Obligations.AddAImmediateResult : Prop :=
  ∀ (im : Nibble) (s : State),
    decode (0x0#4 ++ im) = .addAIm im ∧
    ∃ t, exec (.addAIm im) s = .next t ∧
      t.a.toNat = (s.a.toNat + im.toNat) % 16 ∧ (t.c = true ↔ 15 < s.a.toNat + im.toNat) ∧
      PcAdvanced s t ∧ t.b = s.b ∧ t.inLine = s.inLine ∧ t.outLine = s.outLine ∧ SameMemory s t

/-- Every byte 0001xxxx decodes to MOV A,B, and in every state MOV A,B completes: A becomes B, C
becomes 0, PC becomes PC + 1 mod 16, and B, IN_line, OUT_line and every byte of memory are
unchanged. (R80) -/
def Obligations.MovABResult : Prop :=
  ∀ (n : Nibble) (s : State),
    decode (0x1#4 ++ n) = .movAB ∧
    ∃ t, exec .movAB s = .next t ∧
      t.a = s.b ∧ t.c = false ∧ PcAdvanced s t ∧
      t.b = s.b ∧ t.inLine = s.inLine ∧ t.outLine = s.outLine ∧ SameMemory s t

/-- Every byte 0010xxxx decodes to IN A, and in every state IN A completes: A becomes IN_line, C
becomes 0, PC becomes PC + 1 mod 16, and B, IN_line, OUT_line and every byte of memory are
unchanged. (R90) -/
def Obligations.InAResult : Prop :=
  ∀ (n : Nibble) (s : State),
    decode (0x2#4 ++ n) = .inA ∧
    ∃ t, exec .inA s = .next t ∧
      t.a = s.inLine ∧ t.c = false ∧ PcAdvanced s t ∧
      t.b = s.b ∧ t.inLine = s.inLine ∧ t.outLine = s.outLine ∧ SameMemory s t

/-- The byte 0011iiii decodes to MOV A,im, and in every state MOV A,im completes: A becomes im, C
becomes 0, PC becomes PC + 1 mod 16, and B, IN_line, OUT_line and every byte of memory are
unchanged. (R81) -/
def Obligations.MovAImmediateResult : Prop :=
  ∀ (im : Nibble) (s : State),
    decode (0x3#4 ++ im) = .movAIm im ∧
    ∃ t, exec (.movAIm im) s = .next t ∧
      t.a = im ∧ t.c = false ∧ PcAdvanced s t ∧
      t.b = s.b ∧ t.inLine = s.inLine ∧ t.outLine = s.outLine ∧ SameMemory s t

/-- Every byte 0100xxxx decodes to MOV B,A, and in every state MOV B,A completes: B becomes A, C
becomes 0, PC becomes PC + 1 mod 16, and A, IN_line, OUT_line and every byte of memory are
unchanged. (R82) -/
def Obligations.MovBAResult : Prop :=
  ∀ (n : Nibble) (s : State),
    decode (0x4#4 ++ n) = .movBA ∧
    ∃ t, exec .movBA s = .next t ∧
      t.b = s.a ∧ t.c = false ∧ PcAdvanced s t ∧
      t.a = s.a ∧ t.inLine = s.inLine ∧ t.outLine = s.outLine ∧ SameMemory s t

/-- The byte 0101iiii decodes to ADD B,im, and for every immediate and every state ADD B,im completes:
B becomes (B + im) mod 16, C becomes 1 exactly when B + im > 15, PC becomes PC + 1 mod 16, and A,
IN_line, OUT_line and every byte of memory are unchanged. (R71) -/
def Obligations.AddBImmediateResult : Prop :=
  ∀ (im : Nibble) (s : State),
    decode (0x5#4 ++ im) = .addBIm im ∧
    ∃ t, exec (.addBIm im) s = .next t ∧
      t.b.toNat = (s.b.toNat + im.toNat) % 16 ∧ (t.c = true ↔ 15 < s.b.toNat + im.toNat) ∧
      PcAdvanced s t ∧ t.a = s.a ∧ t.inLine = s.inLine ∧ t.outLine = s.outLine ∧ SameMemory s t

/-- Every byte 0110xxxx decodes to IN B, and in every state IN B completes: B becomes IN_line, C
becomes 0, PC becomes PC + 1 mod 16, and A, IN_line, OUT_line and every byte of memory are
unchanged. (R91) -/
def Obligations.InBResult : Prop :=
  ∀ (n : Nibble) (s : State),
    decode (0x6#4 ++ n) = .inB ∧
    ∃ t, exec .inB s = .next t ∧
      t.b = s.inLine ∧ t.c = false ∧ PcAdvanced s t ∧
      t.a = s.a ∧ t.inLine = s.inLine ∧ t.outLine = s.outLine ∧ SameMemory s t

/-- The byte 0111iiii decodes to MOV B,im, and in every state MOV B,im completes: B becomes im, C
becomes 0, PC becomes PC + 1 mod 16, and A, IN_line, OUT_line and every byte of memory are
unchanged. (R83) -/
def Obligations.MovBImmediateResult : Prop :=
  ∀ (im : Nibble) (s : State),
    decode (0x7#4 ++ im) = .movBIm im ∧
    ∃ t, exec (.movBIm im) s = .next t ∧
      t.b = im ∧ t.c = false ∧ PcAdvanced s t ∧
      t.a = s.a ∧ t.inLine = s.inLine ∧ t.outLine = s.outLine ∧ SameMemory s t

/-- Every byte 1001xxxx decodes to OUT B, and in every state OUT B completes: OUT_line becomes B, C
becomes 0, PC becomes PC + 1 mod 16, and A, B, IN_line and every byte of memory are unchanged.
There is no OUT A: after any instruction OUT_line is B if the instruction is OUT B, im if it is
OUT im, and what it was otherwise. (R92) -/
def Obligations.OutBResult : Prop :=
  (∀ (n : Nibble) (s : State),
    decode (0x9#4 ++ n) = .outB ∧
    ∃ t, exec .outB s = .next t ∧
      t.outLine = s.b ∧ t.c = false ∧ PcAdvanced s t ∧
      t.a = s.a ∧ t.b = s.b ∧ t.inLine = s.inLine ∧ SameMemory s t) ∧
  (∀ (i : Instr) (s : State), ∃ t, exec i s = .next t ∧
    t.outLine = (match i with
      | .outB => s.b
      | .outIm im => im
      | _ => s.outLine))

/-- The byte 1011iiii decodes to OUT im, and in every state OUT im completes: OUT_line becomes im, C
becomes 0, PC becomes PC + 1 mod 16, and A, B, IN_line and every byte of memory are unchanged.
(R93) -/
def Obligations.OutImmediateResult : Prop :=
  ∀ (im : Nibble) (s : State),
    decode (0xB#4 ++ im) = .outIm im ∧
    ∃ t, exec (.outIm im) s = .next t ∧
      t.outLine = im ∧ t.c = false ∧ PcAdvanced s t ∧
      t.a = s.a ∧ t.b = s.b ∧ t.inLine = s.inLine ∧ SameMemory s t

/-- Every byte 1000xxxx, 1010xxxx, 1100xxxx and 1101xxxx decodes to an unassigned opcode; in every
state all four complete with one and the same next state, in which PC is PC + 1 mod 16 and A, B,
C, IN_line, OUT_line and every byte of memory are unchanged. By induction the carry survives any
number of them: after n steps that each execute an unassigned opcode C is what it was, and a JNC
then jumps or falls through by it. (R110) -/
def Obligations.UnassignedOpcodesAdvancePcOnly : Prop :=
  (∀ (n : Nibble) (s : State),
    decode (0x8#4 ++ n) = .unassigned8 ∧ decode (0xA#4 ++ n) = .unassignedA ∧
    decode (0xC#4 ++ n) = .unassignedC ∧ decode (0xD#4 ++ n) = .unassignedD ∧
    ∃ t, exec .unassigned8 s = .next t ∧ exec .unassignedA s = .next t ∧
      exec .unassignedC s = .next t ∧ exec .unassignedD s = .next t ∧
      PcAdvanced s t ∧ t.a = s.a ∧ t.b = s.b ∧ t.c = s.c ∧ t.inLine = s.inLine ∧
      t.outLine = s.outLine ∧ SameMemory s t) ∧
  (∀ (n : Nat) (s : State),
    (∀ k < n, ∀ u, runSteps k s = .next u → isUnassigned (nextInstr u) = true) →
    ∃ t, runSteps n s = .next t ∧ t.c = s.c ∧
      ∀ im, nextInstr t = .jncIm im →
        ∃ u, step t = .next u ∧ u.pc.toNat = if s.c then (t.pc.toNat + 1) % 16 else im.toNat)

/-- The byte 1110iiii decodes to JNC im, and in every state JNC im completes: PC becomes im if C is 0
and PC + 1 mod 16 if C is 1, and A, B, C, IN_line, OUT_line and every byte of memory are
unchanged. With C = 0 and im equal to its own address the machine stays in that state for ever.
(R100) -/
def Obligations.JncResult : Prop :=
  (∀ (im : Nibble) (s : State),
    decode (0xE#4 ++ im) = .jncIm im ∧
    ∃ t, exec (.jncIm im) s = .next t ∧
      t.pc.toNat = (if s.c then (s.pc.toNat + 1) % 16 else im.toNat) ∧
      t.a = s.a ∧ t.b = s.b ∧ t.c = s.c ∧ t.inLine = s.inLine ∧ t.outLine = s.outLine ∧
      SameMemory s t) ∧
  (∀ s, nextInstr s = .jncIm s.pc → s.c = false → ∀ n, runSteps n s = .next s)

/-- The byte 1111iiii decodes to JMP im, and in every state JMP im completes: PC becomes im, and A, B,
C, IN_line, OUT_line and every byte of memory are unchanged. With im equal to its own address the
machine stays in that state for ever, and with im equal to PC + 1 mod 16 its next state is that of
an unassigned opcode. (R101) -/
def Obligations.JmpResult : Prop :=
  (∀ (im : Nibble) (s : State),
    decode (0xF#4 ++ im) = .jmpIm im ∧
    ∃ t, exec (.jmpIm im) s = .next t ∧ t.pc = im ∧
      t.a = s.a ∧ t.b = s.b ∧ t.c = s.c ∧ t.inLine = s.inLine ∧ t.outLine = s.outLine ∧
      SameMemory s t ∧
      (im.toNat = (s.pc.toNat + 1) % 16 → exec .unassigned8 s = .next t)) ∧
  (∀ s, nextInstr s = .jmpIm s.pc → ∀ n, runSteps n s = .next s)

/-- In every state, if the byte at PC decodes to a well-formed instruction i, the step is exec of i at
that same state; nothing is added around it (PC moves inside exec). (R33, R60, 30_encoding.md
section 6) -/
def Obligations.StepRunsDecodedInstruction : Prop :=
  ∀ (i : Instr) (s : State),
    decode (s.mem.read s.pc) = i → i.wellFormed = true → step s = exec i s

/-- One word of each family, written bit by bit from the spec's encoding, decodes to the instruction
it stands for, and the decoder gives the same through the table's numbering. (R54, R55,
95_test_vectors.md section 2.1) -/
def Obligations.HandwrittenWordsDecode : Prop :=
  decode 0b00000101#8 = .addAIm 5 ∧ decode 0b01011010#8 = .addBIm 10 ∧
  decode 0b00011111#8 = .movAB ∧ decode 0b01000111#8 = .movBA ∧
  decode 0b00111100#8 = .movAIm 12 ∧ decode 0b01111110#8 = .movBIm 14 ∧
  decode 0b00100101#8 = .inA ∧ decode 0b01100001#8 = .inB ∧
  decode 0b10010011#8 = .outB ∧ decode 0b10111001#8 = .outIm 9 ∧
  decode 0b11100110#8 = .jncIm 6 ∧ decode 0b11111011#8 = .jmpIm 11 ∧
  decode 0b10001111#8 = .unassigned8 ∧ decode 0b11010010#8 = .unassignedD ∧
  decodeTableWord 8 0xE0 = some (.jncIm 0) ∧ decodeTableWord 8 0xA0 = some .unassignedA

/-- For every low nibble the bytes of MOV A,B, IN A, MOV B,A, IN B and OUT B decode to one
instruction, so their step has one effect, and the encoder writes 0 in the ignored nibble. That
the encoder writes 0 there is a choice, the spec's own in D10 (log entry 3). (R55,
92_eei_decisions.md D10, 30_encoding.md section 3) -/
def Obligations.LowNibbleIgnored : Prop :=
  (∀ n : Nibble, decode (0x1#4 ++ n) = .movAB ∧ decode (0x2#4 ++ n) = .inA ∧
    decode (0x4#4 ++ n) = .movBA ∧ decode (0x6#4 ++ n) = .inB ∧ decode (0x9#4 ++ n) = .outB) ∧
  encode .movAB = 0x10#8 ∧ encode .inA = 0x20#8 ∧ encode .movBA = 0x40#8 ∧
  encode .inB = 0x60#8 ∧ encode .outB = 0x90#8

/-- A byte decodes to an unassigned opcode exactly when it is one of 0x80 to 0x8F, 0xA0 to 0xAF or
0xC0 to 0xDF. (R56, R62) -/
def Obligations.UnassignedBytesAreTheSixtyFour : Prop :=
  ∀ b : Byte, isUnassigned (decode b) = true ↔
    (0x80 ≤ b.toNat ∧ b.toNat ≤ 0x8F) ∨ (0xA0 ≤ b.toNat ∧ b.toNat ≤ 0xAF) ∨
    (0xC0 ≤ b.toNat ∧ b.toNat ≤ 0xDF)

/-- For every well-formed instruction, with every immediate, decoding its encoding gives it back. For
every byte, encoding what it decodes to keeps its opcode nibble; it is the byte itself where the
instruction uses the immediate, and where it does not, it is the byte with low nibble 0, and every
low nibble under that opcode decodes to the same instruction. That the encoder writes 0 in an
ignored nibble is a choice (log entry 3): the spec's own (R55, D10) for the five defined
instructions, and the model's for the four unassigned opcodes, for which the spec has no assembler
text. (R51, R52, R53, R54, R55, R62, 92_eei_decisions.md D10) -/
def Obligations.DecodeEncodeAgree : Prop :=
  (∀ i : Instr, i.wellFormed = true → decode (encode i) = i) ∧
  (∀ b : Byte, (encode (decode b)).toNat / 16 = b.toNat / 16 ∧
    (if usesImmediate (decode b) then encode (decode b) = b
      else (encode (decode b)).toNat = b.toNat / 16 * 16 ∧
        ∀ n : Nibble, decode ((b.extractLsb' 4 4) ++ n) = decode b))

/-- In every state the step completes, and the next A, B, C, PC, OUT_line and IN_line are what the
opcode table gives as numbers from op = byte / 16, im = byte mod 16 and the state before the step,
with every byte of memory unchanged. (R54, R60, R61, 40_arith.md R70, R71, R73, 41_move.md R80,
R81, R82, R83, 42_io.md R90, R91, R92, R93, 43_branch.md R100, R101, 44_unassigned.md R110) -/
def Obligations.StepRefinesOpcodeTable : Prop :=
  ∀ s : State,
    let op := (s.mem.read s.pc).toNat / 16
    let im := (s.mem.read s.pc).toNat % 16
    ∃ t, step s = .next t ∧
      t.a.toNat = (if op = 0x0 then (s.a.toNat + im) % 16 else if op = 0x1 then s.b.toNat
        else if op = 0x2 then s.inLine.toNat else if op = 0x3 then im else s.a.toNat) ∧
      t.b.toNat = (if op = 0x4 then s.a.toNat else if op = 0x5 then (s.b.toNat + im) % 16
        else if op = 0x6 then s.inLine.toNat else if op = 0x7 then im else s.b.toNat) ∧
      t.outLine.toNat = (if op = 0x9 then s.b.toNat else if op = 0xB then im
        else s.outLine.toNat) ∧
      t.c = (if op = 0x0 then decide (15 < s.a.toNat + im)
        else if op = 0x5 then decide (15 < s.b.toNat + im)
        else if op ∈ [0x8, 0xA, 0xC, 0xD, 0xE, 0xF] then s.c else false) ∧
      t.pc.toNat = (if op = 0xF then im else if op = 0xE ∧ s.c = false then im
        else (s.pc.toNat + 1) % 16) ∧
      t.inLine = s.inLine ∧ SameMemory s t

/-- For every image and every state whose memory is in canonical form and holds exactly that image, if
the step answers a next state, its memory is in canonical form and holds exactly that image. (R32,
R43, R45, 20_memory.md section 1) -/
def Obligations.MemoryInvariantKeptByStep : Prop :=
  ∀ (image : List Byte) (s t : State), HoldsImage image s → step s = .next t → HoldsImage image t

/-- The reset state's memory is in canonical form and holds the empty image: every word is 0x00. That
the reset state stands for the empty image is the model's choice (log entry 1). (R45, R140,
95_test_vectors.md section 2.7) -/
def Obligations.MemoryInvariantAtReset : Prop :=
  HoldsImage [] State.reset

/-- From every host state whose memory is canonical and holds the run's image, for every sequence of
host iterations with any keys, the run completes, the image is the same, and the memory is
canonical and still holds it, whatever the host's open parameters are. The order of one
iteration's actions is the model's reading (log entries 6 and 12). (R32, R131, R133, R140) -/
def Obligations.HostRunKeepsImage : Prop :=
  ∀ (keys : List (Option HostCommand)) (l : ControlLoop), HoldsImage l.image l.machine →
    ∃ l', l.hostRun keys = .next l' ∧ l'.image = l.image ∧ HoldsImage l.image l'.machine

/-- For every number of steps and every state, the run of that many steps ends in a next state. (R62,
R120, R134) -/
def Obligations.EveryRunCompletes : Prop :=
  ∀ (n : Nat) (s : State), ∃ t, runSteps n s = .next t

/-- For all 4-bit x and y, x + y = result + 16 * carry, and the carry is 1 exactly when x + y > 15.
(R72, 40_arith.md section 2) -/
def Obligations.AdderIsExact : Prop :=
  ∀ x y : Nibble,
    x.toNat + y.toNat = (adderResult x y).toNat + 16 * (adderCarry x y).toNat ∧
    (adderCarry x y = true ↔ 15 < x.toNat + y.toNat)

/-- In every state the step completes and C becomes: the carry of A + im for opcode 0x0, the carry of
B + im for 0x5, 0 for 0x1, 0x2, 0x3, 0x4, 0x6, 0x7, 0x9 and 0xB, and is unchanged for 0xE, 0xF,
0x8, 0xA, 0xC and 0xD. (R73) -/
def Obligations.CarryFollowsOpcodeFunction : Prop :=
  ∀ s : State, ∃ t, step s = .next t ∧
    t.c = (match (s.mem.read s.pc).toNat / 16 with
      | 0x0 => decide (15 < s.a.toNat + (s.mem.read s.pc).toNat % 16)
      | 0x5 => decide (15 < s.b.toNat + (s.mem.read s.pc).toNat % 16)
      | 0x1 | 0x2 | 0x3 | 0x4 | 0x6 | 0x7 | 0x9 | 0xB => false
      | _ => s.c)

/-- A JNC executed right after any step jumps or falls through by the C that step left. Any number of
steps that each execute JNC, JMP or an unassigned opcode complete and leave C as it was. A step
that executes a MOV, IN or OUT completes with C = 0. After any step, ADD or other, followed by a
MOV, IN or OUT step, a JNC always jumps. (R74) -/
def Obligations.CarryPersistsUntilWritten : Prop :=
  (∀ s t im, step s = .next t → nextInstr t = .jncIm im →
    ∃ u, step t = .next u ∧ u.pc.toNat = if t.c then (t.pc.toNat + 1) % 16 else im.toNat) ∧
  (∀ (n : Nat) (s : State),
    (∀ k < n, ∀ u, runSteps k s = .next u → keepsCarry (nextInstr u) = true) →
    ∃ t, runSteps n s = .next t ∧ t.c = s.c) ∧
  (∀ s, clearsCarry (nextInstr s) = true → ∃ t, step s = .next t ∧ t.c = false) ∧
  (∀ s t u im, step s = .next t → clearsCarry (nextInstr t) = true → step t = .next u →
    nextInstr u = .jncIm im → ∃ v, step u = .next v ∧ v.pc = im)

/-- In every state the step completes; PC becomes im for JMP im, im for JNC im with C = 0, and PC + 1
mod 16 for every other instruction and for JNC with C = 1, so PC 15 is followed by 0. (R61) -/
def Obligations.ProgramCounterFollowsInstruction : Prop :=
  ∀ s : State, ∃ t, step s = .next t ∧
    t.pc.toNat = (match nextInstr s with
      | .jmpIm im => im.toNat
      | .jncIm im => if s.c then (s.pc.toNat + 1) % 16 else im.toNat
      | _ => (s.pc.toNat + 1) % 16)

/-- Every instruction completes in every state, and A, B, OUT_line and C are unchanged unless the
instruction is one the state table lists as writing them; IN_line and every byte of memory are
always unchanged; an instruction listed as clearing C leaves C = 0. (R10, R14, R16, R17, R32,
10_state.md section 1) -/
def Obligations.OnlyListedInstructionsWrite : Prop :=
  ∀ (i : Instr) (s : State), ∃ t, exec i s = .next t ∧
    (writesA i = true ∨ t.a = s.a) ∧ (writesB i = true ∨ t.b = s.b) ∧
    (writesOut i = true ∨ t.outLine = s.outLine) ∧ (keepsCarry i = false ∨ t.c = s.c) ∧
    (clearsCarry i = false ∨ t.c = false) ∧ t.inLine = s.inLine ∧ SameMemory s t

/-- For every instruction and every state, changing C before the instruction changes nothing after it
but C itself, where the instruction keeps C, and PC, where it is JNC. (R14, 10_state.md section 3) -/
def Obligations.CarryReadOnlyByJnc : Prop :=
  ∀ (i : Instr) (s : State) (v : Bool), ∃ t u,
    exec i s = .next t ∧ exec i (s.setC v) = .next u ∧
    u.a = t.a ∧ u.b = t.b ∧ u.inLine = t.inLine ∧ u.outLine = t.outLine ∧ SameMemory t u ∧
    ((∃ im, i = .jncIm im) ∨ u.pc = t.pc) ∧ (keepsCarry i = true ∨ u.c = t.c)

/-- For every instruction but IN A and IN B, and every state, changing IN_line before the instruction
changes nothing after it but IN_line, which keeps its value. (R16, R94, 10_state.md section 5) -/
def Obligations.InputLatchReadOnlyByIn : Prop :=
  ∀ (i : Instr) (s : State) (v : Nibble), ∃ t u,
    exec i s = .next t ∧ exec i (s.setInLine v) = .next u ∧
    t.inLine = s.inLine ∧ u.inLine = v ∧ (readsIn i = true ∨ AgreeButInLine t u)

/-- For every instruction and every state, changing OUT_line before the instruction changes nothing
after it but OUT_line, which an OUT writes with the same value and every other instruction leaves.
(R17, 10_state.md section 5) -/
def Obligations.OutputLatchReadByNothing : Prop :=
  ∀ (i : Instr) (s : State) (v : Nibble), ∃ t u,
    exec i s = .next t ∧ exec i (s.setOutLine v) = .next u ∧ AgreeButOutLine t u ∧
    ((writesOut i = true ∧ u.outLine = t.outLine) ∨
      (writesOut i = false ∧ t.outLine = s.outLine ∧ u.outLine = v))

/-- The step is exec of what the byte at PC decodes to, read in the state before the step; and if two
memories hold the same byte at PC, the step leads to the same next state but for the memory, which
is in each case the one before the step. (R33) -/
def Obligations.FetchIsTheOnlyMemoryRead : Prop :=
  (∀ s : State, step s = exec (decode (s.mem.read s.pc)) s) ∧
  (∀ (s : State) (m : Memory), m.read s.pc = s.mem.read s.pc →
    ∃ t, step s = .next t ∧ step (s.setMem m) = .next (t.setMem m) ∧ t.mem = s.mem)

/-- For every image and every number of steps, the run from power-on completes and the byte the next
step fetches is the byte of the image at PC, or 0x00 beyond the image: no store was ever seen by a
fetch. (R43) -/
def Obligations.FetchSeesImageByte : Prop :=
  ∀ (image : List Byte) (n : Nat), ∃ s, runSteps n (powerOn image) = .next s ∧
    fetch s = image.getD s.pc.toNat 0

/-- In every state in which the next instruction is a JMP to its own address, or a JNC to its own
address with C = 0, any number of steps leaves every state element unchanged. (R103, R134,
43_branch.md section 2) -/
def Obligations.SelfJumpIsFixedPoint : Prop :=
  ∀ s : State, (nextInstr s = .jmpIm s.pc ∨ (nextInstr s = .jncIm s.pc ∧ s.c = false)) →
    ∀ n, runSteps n s = .next s

/-- The reset state has A, B, C, PC, IN_line and OUT_line 0 and every word of memory 0x00, so the
first instruction is fetched from address 0, and it is the power-on state of the empty image. That
memory holds the empty image is the model's choice for the parameter image (log entry 1). (R10,
R140, R141, 70_reset_and_hazards.md section 1) -/
def Obligations.ResetStateIsZero : Prop :=
  State.reset.a = 0 ∧ State.reset.b = 0 ∧ State.reset.c = false ∧ State.reset.pc = 0 ∧
  State.reset.inLine = 0 ∧ State.reset.outLine = 0 ∧
  (∀ addr : Nibble, State.reset.mem.read addr = 0) ∧ powerOn [] = State.reset

/-- For every image and every memory in canonical form, after loading each address below the image's
length reads as the image's byte there and every other address as 0x00. Power-on memory is that of
the empty state after loading. A load failure gives no first state. That no step is taken after a
load failure is a choice, the spec's own in D21 (log entry 13). (R45, 92_eei_decisions.md D21,
20_memory.md section 6) -/
def Obligations.LoaderFillsMemoryFromImage : Prop :=
  (∀ (image : List Byte) (m : Memory) (addr : Nibble), m.wf = true →
    (m.load image).read addr =
      if h : addr.toNat < image.length then image[addr.toNat] else 0) ∧
  (∀ (image : List Byte) (addr : Nibble), startup (.loaded image) = some (powerOn image) ∧
    (powerOn image).mem.read addr =
      if h : addr.toNat < image.length then image[addr.toNat] else 0) ∧
  startup .fileNotFound = none ∧ (∀ partly, startup (.readError partly) = none)

/-- From every host state whose memory is in canonical form, reset completes: A, B, C, PC, IN_line,
OUT_line and the cycle counter become 0 and every address reads as the image's byte there, or 0x00
beyond the image. (R140) -/
def Obligations.ResetZeroesAndReloads : Prop :=
  ∀ l : ControlLoop, l.machine.mem.wf = true → ∃ l', l.perform .reset = .next l' ∧
    l'.machine.a = 0 ∧ l'.machine.b = 0 ∧ l'.machine.c = false ∧ l'.machine.pc = 0 ∧
    l'.machine.inLine = 0 ∧ l'.machine.outLine = 0 ∧ l'.cycles = 0 ∧ l'.image = l.image ∧
    ∀ addr : Nibble, l'.machine.mem.read addr =
      if h : addr.toNat < l.image.length then l.image[addr.toNat] else 0

/-- For every image and every state whose memory is in canonical form, reset gives exactly the power-
on state of that image, and so does a second reset. (R142) -/
def Obligations.ResetEqualsPowerOn : Prop :=
  ∀ (image : List Byte) (s : State), s.mem.wf = true →
    resetMachine image s = powerOn image ∧
    resetMachine image (resetMachine image s) = powerOn image

/-- With rst the state takes the reset values whatever the other inputs; without rst, step_en makes a
step whatever in_we; with in_we alone IN_line becomes in_data and nothing else changes; with none
the state holds. The outputs equal the state elements and imem_data equals memory at PC. The
signals and their priorities are a choice, the spec's own in D3 (log entry 15). (R46, R122,
92_eei_decisions.md D3, 20_memory.md section 7) -/
def Obligations.EdgePriorities : Prop :=
  ∀ (image : List Byte) (s : State) (e w : Bool) (d : Nibble),
    edge image ⟨true, e, w, d⟩ s = .next (resetMachine image s) ∧
    edge image ⟨false, true, w, d⟩ s = step s ∧
    (∃ t, edge image ⟨false, false, true, d⟩ s = .next t ∧ t.inLine = d ∧ AgreeButInLine s t) ∧
    edge image ⟨false, false, false, d⟩ s = .next s ∧
    outputs s = ⟨s.pc, s.outLine, s.a, s.b, s.pc, s.c, s.inLine⟩ ∧
    imemData s = s.mem.read (outputs s).imemAddr

/-- For every state with memory in canonical form and every byte value, after placing the byte at PC
the next step executes what it decodes to; the placing changes no register, flag or latch and no
other address, and keeps the canonical form. The placing stands for a host load (log entry 1).
(R31, R33, 20_memory.md section 1) -/
def Obligations.PlacedWordRunsNext : Prop :=
  ∀ (s : State) (w : Nat), s.mem.wf = true → w < 256 →
    step (s.withFetchWord 8 w) = exec (decode (BitVec.ofNat 8 w)) (s.withFetchWord 8 w) ∧
    s.withFetchWord 8 w = s.setMem (s.withFetchWord 8 w).mem ∧
    (s.withFetchWord 8 w).mem.wf = true ∧
    ∀ addr, addr ≠ s.pc → (s.withFetchWord 8 w).mem.read addr = s.mem.read addr

/-- In Manual mode the step key takes one step and adds one to the cycle counter, a poll without a key
changes nothing, a changes the mode alone and m changes nothing; in Auto mode an iteration without
a key takes one step and stays in Auto, and with m it takes that same step and then changes the
mode alone, with a it does what an iteration without a key does, and with the step key it does so
but, perhaps, for the cycle counter; reset makes the block what R140 gives with the run's image,
sets the cycle counter to 0 and keeps the image and the run; dump, help and other keys change
nothing; quit ends the run alone; set-input writes an accepted value to IN_line and changes
nothing else. That the keys m in Manual, a in Auto and the step key in Auto do no more is read
from U11 (log entry 6). That nothing happens after quit, and that reset keeps the mode, is the
model's choice (log entry 11), and that the polled key acts after the step of its iteration is the
model's reading (log entry 12). (R128, R131, R132, R136, R140, 60_exceptions.md section 3,
93_implementation_defined.md U11) -/
def Obligations.HostActionsOnTheBlock : Prop :=
  (∀ l : ControlLoop, l.running = true → l.mode = .manual → ∃ m, step l.machine = .next m ∧
    l.iterate (some .step) = .next ⟨m, .manual, l.cycles + 1, l.image, true⟩ ∧
    l.iterate none = .next l ∧
    l.iterate (some .enterAuto) = .next ⟨l.machine, .auto, l.cycles, l.image, true⟩ ∧
    l.iterate (some .enterManual) = .next l) ∧
  (∀ l : ControlLoop, l.running = true → l.mode = .auto → ∃ m l', step l.machine = .next m ∧
    l.iterate none = .next l' ∧ l'.machine = m ∧ l'.mode = .auto ∧ l'.image = l.image ∧
    l'.running = true ∧
    l.iterate (some .enterManual) = .next ⟨m, .manual, l'.cycles, l.image, true⟩ ∧
    l.iterate (some .enterAuto) = .next l' ∧
    ∃ n, l.iterate (some .step) = .next ⟨m, .auto, n, l.image, true⟩) ∧
  (∀ l : ControlLoop, l.running = false → ∀ key, l.iterate key = .next l) ∧
  (∀ l : ControlLoop, l.perform .dumpMemory = .next l ∧ l.perform .help = .next l ∧
    l.perform .otherKey = .next l ∧
    l.perform .reset = .next ⟨resetMachine l.image l.machine, l.mode, 0, l.image, l.running⟩ ∧
    l.perform .quit = .next ⟨l.machine, l.mode, l.cycles, l.image, false⟩) ∧
  (∀ (l : ControlLoop) (text : List Char), ∃ l', l.perform (.setInput text) = .next l' ∧
    l'.machine.inLine = (parseInput text).getD l.machine.inLine ∧
    AgreeButInLine l.machine l'.machine ∧
    l'.mode = l.mode ∧ l'.cycles = l.cycles ∧ l'.image = l.image ∧ l'.running = l.running)

/-- A text is accepted with value v exactly when it has four characters, all 0 or 1, and v is its
binary value, or it has another length above 0, all decimal digits, and v is its decimal value;
any other text is rejected. An accepted value becomes IN_line and a rejected text leaves the state
unchanged. The reading of texts the source does not classify (another length is decimal only,
leading zeros are allowed) is a choice, the spec's own in D19 (log entry 9). (R132,
92_eei_decisions.md D19, 60_exceptions.md section 3) -/
def Obligations.SetInputParse : Prop :=
  (∀ (text : List Char) (v : Nibble), parseInput text = some v ↔
    (text.length = 4 ∧ (∀ ch ∈ text, ch = '0' ∨ ch = '1') ∧
      v.toNat = Nat.ofDigits 2 (text.reverse.map (fun ch => ch.toNat - '0'.toNat))) ∨
    (text.length ≠ 4 ∧ text ≠ [] ∧ (∀ ch ∈ text, '0' ≤ ch ∧ ch ≤ '9') ∧
      v.toNat = Nat.ofDigits 10 (text.reverse.map (fun ch => ch.toNat - '0'.toNat)))) ∧
  (∀ (text : List Char) (s : State), (∀ v, parseInput text = some v →
      setInputText text s = s.setInLine v) ∧
    (parseInput text = none → setInputText text s = s))

/-- For every instruction of the twelve defined opcodes and both notations of the immediate, its text
assembles to it and to its encoding; a text that assembles is some defined instruction's text; and
an unassigned opcode has no text. That no other spelling is assembled is the model's choice (log
entry 10). (R55, R58, 30_encoding.md section 5) -/
def Obligations.AssemblyRoundTrip : Prop :=
  (∀ (i : Instr) (r : Radix), isUnassigned i = true ∨
    ∃ text, asmText r i = some text ∧ assembleInstr text = some i ∧ assemble text = some (encode i)) ∧
  (∀ (text : List Char) (i : Instr), assembleInstr text = some i →
    isUnassigned i = false ∧ (asmText .decimal i = some text ∨ asmText .binary i = some text)) ∧
  (∀ (i : Instr) (r : Radix), isUnassigned i = true → asmText r i = none)

/-- In Auto mode an iteration with any key, or none, takes exactly one step of the block, then set-
input or reset acts on the block if it is the key and nothing else does; the mode becomes Manual
for m and stays Auto otherwise; reset sets the cycle counter to 0 and otherwise it goes up by at
most one. In Manual mode an iteration takes one step for the step key and none for any other key
or none; set-input and reset act on the block, nothing else does; the mode becomes Auto for a and
stays Manual otherwise; the counter goes up by one for the step key, becomes 0 for reset and stays
otherwise. The image is kept. That the polled key acts after the step of its iteration is the
model's reading (log entry 12), what keys in the wrong mode do is read from U11 (log entry 6), and
that reset keeps the mode is the model's choice (log entry 11). (R128, R131, R132, R133, R140,
60_exceptions.md section 3, 93_implementation_defined.md U11) -/
def Obligations.HostIterationTakesAtMostOneStep : Prop :=
  (∀ (key : Option HostCommand) (l : ControlLoop), l.running = true → l.mode = .auto →
    ∃ m l', step l.machine = .next m ∧ l.iterate key = .next l' ∧ l'.image = l.image ∧
      l'.machine = (match key with
        | some (.setInput text) => setInputText text m
        | some .reset => resetMachine l.image m
        | _ => m) ∧
      l'.mode = (match key with
        | some .enterManual => .manual
        | _ => .auto) ∧
      (match key with
        | some .reset => l'.cycles = 0
        | _ => l.cycles ≤ l'.cycles ∧ l'.cycles ≤ l.cycles + 1)) ∧
  (∀ (key : Option HostCommand) (l : ControlLoop), l.running = true → l.mode = .manual →
    ∃ m l', step l.machine = .next m ∧ l.iterate key = .next l' ∧ l'.image = l.image ∧
      l'.machine = (match key with
        | some .step => m
        | some (.setInput text) => setInputText text l.machine
        | some .reset => resetMachine l.image l.machine
        | _ => l.machine) ∧
      l'.mode = (match key with
        | some .enterAuto => .auto
        | _ => .manual) ∧
      l'.cycles = (match key with
        | some .step => l.cycles + 1
        | some .reset => 0
        | _ => l.cycles))
end

