-- ==== Sys2Proof/Laws/State.lean ====
section
/-! SUPPORT. One lemma per field per update of State, so that no proof unfolds an update. -/

namespace Sys2Proof.Machine

@[simp] theorem State.setMem_mem (s : State) (m : Memory) : (s.setMem m).mem = m := rfl
@[simp] theorem State.setMem_a (s : State) (m : Memory) : (s.setMem m).a = s.a := rfl
@[simp] theorem State.setMem_b (s : State) (m : Memory) : (s.setMem m).b = s.b := rfl
@[simp] theorem State.setMem_c (s : State) (m : Memory) : (s.setMem m).c = s.c := rfl
@[simp] theorem State.setMem_pc (s : State) (m : Memory) : (s.setMem m).pc = s.pc := rfl
@[simp] theorem State.setMem_inLine (s : State) (m : Memory) : (s.setMem m).inLine = s.inLine := rfl
@[simp] theorem State.setMem_outLine (s : State) (m : Memory) : (s.setMem m).outLine = s.outLine := rfl

@[simp] theorem State.setA_mem (s : State) (v : Nibble) : (s.setA v).mem = s.mem := rfl
@[simp] theorem State.setA_a (s : State) (v : Nibble) : (s.setA v).a = v := rfl
@[simp] theorem State.setA_b (s : State) (v : Nibble) : (s.setA v).b = s.b := rfl
@[simp] theorem State.setA_c (s : State) (v : Nibble) : (s.setA v).c = s.c := rfl
@[simp] theorem State.setA_pc (s : State) (v : Nibble) : (s.setA v).pc = s.pc := rfl
@[simp] theorem State.setA_inLine (s : State) (v : Nibble) : (s.setA v).inLine = s.inLine := rfl
@[simp] theorem State.setA_outLine (s : State) (v : Nibble) : (s.setA v).outLine = s.outLine := rfl

@[simp] theorem State.setB_mem (s : State) (v : Nibble) : (s.setB v).mem = s.mem := rfl
@[simp] theorem State.setB_a (s : State) (v : Nibble) : (s.setB v).a = s.a := rfl
@[simp] theorem State.setB_b (s : State) (v : Nibble) : (s.setB v).b = v := rfl
@[simp] theorem State.setB_c (s : State) (v : Nibble) : (s.setB v).c = s.c := rfl
@[simp] theorem State.setB_pc (s : State) (v : Nibble) : (s.setB v).pc = s.pc := rfl
@[simp] theorem State.setB_inLine (s : State) (v : Nibble) : (s.setB v).inLine = s.inLine := rfl
@[simp] theorem State.setB_outLine (s : State) (v : Nibble) : (s.setB v).outLine = s.outLine := rfl

@[simp] theorem State.setC_mem (s : State) (v : Bool) : (s.setC v).mem = s.mem := rfl
@[simp] theorem State.setC_a (s : State) (v : Bool) : (s.setC v).a = s.a := rfl
@[simp] theorem State.setC_b (s : State) (v : Bool) : (s.setC v).b = s.b := rfl
@[simp] theorem State.setC_c (s : State) (v : Bool) : (s.setC v).c = v := rfl
@[simp] theorem State.setC_pc (s : State) (v : Bool) : (s.setC v).pc = s.pc := rfl
@[simp] theorem State.setC_inLine (s : State) (v : Bool) : (s.setC v).inLine = s.inLine := rfl
@[simp] theorem State.setC_outLine (s : State) (v : Bool) : (s.setC v).outLine = s.outLine := rfl

@[simp] theorem State.setPc_mem (s : State) (v : Nibble) : (s.setPc v).mem = s.mem := rfl
@[simp] theorem State.setPc_a (s : State) (v : Nibble) : (s.setPc v).a = s.a := rfl
@[simp] theorem State.setPc_b (s : State) (v : Nibble) : (s.setPc v).b = s.b := rfl
@[simp] theorem State.setPc_c (s : State) (v : Nibble) : (s.setPc v).c = s.c := rfl
@[simp] theorem State.setPc_pc (s : State) (v : Nibble) : (s.setPc v).pc = v := rfl
@[simp] theorem State.setPc_inLine (s : State) (v : Nibble) : (s.setPc v).inLine = s.inLine := rfl
@[simp] theorem State.setPc_outLine (s : State) (v : Nibble) : (s.setPc v).outLine = s.outLine := rfl

@[simp] theorem State.setInLine_mem (s : State) (v : Nibble) : (s.setInLine v).mem = s.mem := rfl
@[simp] theorem State.setInLine_a (s : State) (v : Nibble) : (s.setInLine v).a = s.a := rfl
@[simp] theorem State.setInLine_b (s : State) (v : Nibble) : (s.setInLine v).b = s.b := rfl
@[simp] theorem State.setInLine_c (s : State) (v : Nibble) : (s.setInLine v).c = s.c := rfl
@[simp] theorem State.setInLine_pc (s : State) (v : Nibble) : (s.setInLine v).pc = s.pc := rfl
@[simp] theorem State.setInLine_inLine (s : State) (v : Nibble) : (s.setInLine v).inLine = v := rfl
@[simp] theorem State.setInLine_outLine (s : State) (v : Nibble) : (s.setInLine v).outLine = s.outLine := rfl

@[simp] theorem State.setOutLine_mem (s : State) (v : Nibble) : (s.setOutLine v).mem = s.mem := rfl
@[simp] theorem State.setOutLine_a (s : State) (v : Nibble) : (s.setOutLine v).a = s.a := rfl
@[simp] theorem State.setOutLine_b (s : State) (v : Nibble) : (s.setOutLine v).b = s.b := rfl
@[simp] theorem State.setOutLine_c (s : State) (v : Nibble) : (s.setOutLine v).c = s.c := rfl
@[simp] theorem State.setOutLine_pc (s : State) (v : Nibble) : (s.setOutLine v).pc = s.pc := rfl
@[simp] theorem State.setOutLine_inLine (s : State) (v : Nibble) : (s.setOutLine v).inLine = s.inLine := rfl
@[simp] theorem State.setOutLine_outLine (s : State) (v : Nibble) : (s.setOutLine v).outLine = v := rfl

@[simp] theorem State.advance_mem (s : State) : s.advance.mem = s.mem := rfl
@[simp] theorem State.advance_a (s : State) : s.advance.a = s.a := rfl
@[simp] theorem State.advance_b (s : State) : s.advance.b = s.b := rfl
@[simp] theorem State.advance_c (s : State) : s.advance.c = s.c := rfl
@[simp] theorem State.advance_pc (s : State) : s.advance.pc = pcPlusOne s.pc := rfl
@[simp] theorem State.advance_inLine (s : State) : s.advance.inLine = s.inLine := rfl
@[simp] theorem State.advance_outLine (s : State) : s.advance.outLine = s.outLine := rfl

@[simp] theorem State.reset_mem : State.reset.mem = [] := rfl
@[simp] theorem State.reset_a : State.reset.a = 0 := rfl
@[simp] theorem State.reset_b : State.reset.b = 0 := rfl
@[simp] theorem State.reset_c : State.reset.c = false := rfl
@[simp] theorem State.reset_pc : State.reset.pc = 0 := rfl
@[simp] theorem State.reset_inLine : State.reset.inLine = 0 := rfl
@[simp] theorem State.reset_outLine : State.reset.outLine = 0 := rfl

/-- Two states with equal fields are equal. -/
theorem State.ext_fields {s t : State} (hm : s.mem = t.mem) (ha : s.a = t.a) (hb : s.b = t.b)
    (hc : s.c = t.c) (hp : s.pc = t.pc) (hi : s.inLine = t.inLine) (ho : s.outLine = t.outLine) :
    s = t := by
  cases s; cases t; simp_all

end Sys2Proof.Machine
end

