-- ==== Sys2Proof/Laws/Effects.lean ====
section
/-! SUPPORT. What each shared operation can do, said once, on numbers. -/

namespace Sys2Proof.Machine

/-- The next PC is PC + 1 modulo 16 (R61). -/
theorem pcPlusOne_toNat (pc : Nibble) : (pcPlusOne pc).toNat = (pc.toNat + 1) % 16 := by
  revert pc; decide

/-- The adder's result is the sum modulo 16 (R72). -/
theorem adderResult_toNat (x y : Nibble) : (adderResult x y).toNat = (x.toNat + y.toNat) % 16 := by
  revert x y; decide +kernel

/-- The adder's carry-out says that the sum exceeds 15 (R72). -/
theorem adderCarry_eq (x y : Nibble) : adderCarry x y = decide (15 < x.toNat + y.toNat) := by
  revert x y; decide +kernel

/-- A MOV, IN or OUT: everything but the destination, C and PC is unchanged. -/
theorem transfer_spec (d : Dest) (src : Source) (s : State) :
    (transfer d src s).mem = s.mem ∧ (transfer d src s).inLine = s.inLine ∧
    (transfer d src s).c = false ∧ (transfer d src s).pc = pcPlusOne s.pc ∧
    (transfer d src s).a = (if d = .regA then src.value s else s.a) ∧
    (transfer d src s).b = (if d = .regB then src.value s else s.b) ∧
    (transfer d src s).outLine = (if d = .outLine then src.value s else s.outLine) := by
  cases d <;> simp [transfer, Dest.store, carryAfterTransfer]

/-- An ADD: everything but the destination, C and PC is unchanged. -/
theorem addInto_spec (d : Dest) (x : Source) (im : Nibble) (s : State) :
    (addInto d x im s).mem = s.mem ∧ (addInto d x im s).inLine = s.inLine ∧
    (addInto d x im s).c = adderCarry (x.value s) im ∧ (addInto d x im s).pc = pcPlusOne s.pc ∧
    (addInto d x im s).a = (if d = .regA then adderResult (x.value s) im else s.a) ∧
    (addInto d x im s).b = (if d = .regB then adderResult (x.value s) im else s.b) ∧
    (addInto d x im s).outLine = (if d = .outLine then adderResult (x.value s) im else s.outLine) := by
  cases d <;> simp [addInto, Dest.store]

/-- A jump writes PC alone. -/
theorem jump_spec (target : Nibble) (s : State) : jump target s = s.setPc target := rfl

/-- A jump on no carry writes PC alone: the target if C = 0, else PC + 1. -/
theorem jumpIfNoCarry_spec (target : Nibble) (s : State) :
    jumpIfNoCarry target s = s.setPc (if s.c = false then target else pcPlusOne s.pc) := by
  cases h : s.c <;> simp [jumpIfNoCarry, noCarry, h, jump, State.advance]

end Sys2Proof.Machine
end

