-- ==== Sys2Proof/Laws/Memory.lean ====
section
/-! SUPPORT. Reads after writes, and the canonical form that every memory operation keeps. -/

namespace Sys2Proof.Machine

@[simp] theorem Memory.read_nil (addr : Nibble) : Memory.read [] addr = Memory.unlisted := rfl

theorem Memory.read_cons (k : Nat) (v : Byte) (rest : Memory) (addr : Nibble) :
    Memory.read ((k, v) :: rest) addr = if k = addr.toNat then v else Memory.read rest addr := rfl

theorem Memory.wfFrom_cons {lo k : Nat} {v : Byte} {rest : Memory} :
    Memory.wfFrom lo ((k, v) :: rest) = true ↔
      lo ≤ k ∧ k < 16 ∧ v ≠ Memory.unlisted ∧ Memory.wfFrom (k + 1) rest = true := by
  simp [Memory.wfFrom, and_assoc]

/-- A canonical form from a later address on is one from an earlier address on. -/
theorem Memory.wfFrom_mono {lo lo' : Nat} (h : lo ≤ lo') :
    ∀ {m : Memory}, Memory.wfFrom lo' m = true → Memory.wfFrom lo m = true
  | [], _ => rfl
  | (_, _) :: _, hm => by
    obtain ⟨h1, h2⟩ := Memory.wfFrom_cons.1 hm
    exact Memory.wfFrom_cons.2 ⟨h.trans h1, h2⟩

/-- Below the first address of a canonical form nothing is listed. -/
theorem Memory.read_below {lo : Nat} {addr : Nibble} (h : addr.toNat < lo) :
    ∀ {m : Memory}, Memory.wfFrom lo m = true → m.read addr = Memory.unlisted
  | [], _ => rfl
  | (k, v) :: rest, hm => by
    obtain ⟨h1, -, -, h4⟩ := Memory.wfFrom_cons.1 hm
    have hk : k ≠ addr.toNat := by omega
    rw [Memory.read_cons, if_neg hk, Memory.read_below (by omega) h4]

/-- Inserting a cell keeps the canonical form. -/
theorem Memory.insertCell_wfFrom {lo k : Nat} {v : Byte} (hlo : lo ≤ k) (hk : k < 16) :
    ∀ {m : Memory}, Memory.wfFrom lo m = true → Memory.wfFrom lo (Memory.insertCell k v m) = true
  | [], _ => by
    by_cases hv : v = Memory.unlisted
    · simp [Memory.insertCell, hv, Memory.wfFrom]
    · simpa [Memory.insertCell, hv] using Memory.wfFrom_cons.2 ⟨hlo, hk, hv, rfl⟩
  | (k', v') :: rest, hm => by
    obtain ⟨h1, h2, h3, h4⟩ := Memory.wfFrom_cons.1 hm
    unfold Memory.insertCell
    split_ifs with hlt hv heq hv
    · exact hm
    · exact Memory.wfFrom_cons.2 ⟨hlo, hk, hv, Memory.wfFrom_cons.2 ⟨hlt, h2, h3, h4⟩⟩
    · exact Memory.wfFrom_mono (by omega) h4
    · exact Memory.wfFrom_cons.2 ⟨hlo, hk, hv, heq ▸ h4⟩
    · exact Memory.wfFrom_cons.2 ⟨h1, h2, h3, Memory.insertCell_wfFrom (by omega) hk h4⟩

/-- A write keeps the canonical form. -/
theorem Memory.write_wf {m : Memory} (addr : Nibble) (v : Byte) (hm : m.wf = true) :
    (m.write addr v).wf = true :=
  Memory.insertCell_wfFrom (Nat.zero_le _) addr.isLt hm

/-- Loading keeps the canonical form. -/
theorem Memory.loadUpTo_wf {m : Memory} (image : List Byte) (hm : m.wf = true) :
    ∀ n, (Memory.loadUpTo image n m).wf = true
  | 0 => hm
  | n + 1 => Memory.write_wf _ _ (Memory.loadUpTo_wf image hm n)

/-- The loader leaves a memory in canonical form. -/
theorem Memory.load_wf {m : Memory} (image : List Byte) (hm : m.wf = true) :
    (m.load image).wf = true :=
  Memory.loadUpTo_wf image hm 16

/-- The memory after reset is in canonical form. -/
theorem State.reset_mem_wf : State.reset.mem.wf = true := rfl

theorem Memory.insertCell_read_same {addr : Nibble} {v : Byte} :
    ∀ {lo : Nat} {m : Memory}, Memory.wfFrom lo m = true →
      Memory.read (Memory.insertCell addr.toNat v m) addr = v
  | _, [], _ => by
    by_cases hv : v = Memory.unlisted <;> simp [Memory.insertCell, hv, Memory.read_cons]
  | _, (k', v') :: rest, hm => by
    obtain ⟨h1, h2, h3, h4⟩ := Memory.wfFrom_cons.1 hm
    unfold Memory.insertCell
    split_ifs with hlt hv heq hv
    · exact hv ▸ Memory.read_below hlt (Memory.wfFrom_cons.2 ⟨le_refl _, h2, h3, h4⟩)
    · exact if_pos rfl
    · exact hv ▸ Memory.read_below (lo := k' + 1) (by omega) h4
    · exact if_pos rfl
    · rw [Memory.read_cons, if_neg (Ne.symm heq), Memory.insertCell_read_same h4]

theorem Memory.insertCell_read_other {k : Nat} {addr : Nibble} {v : Byte} (h : addr.toNat ≠ k) :
    ∀ {m : Memory}, Memory.read (Memory.insertCell k v m) addr = Memory.read m addr
  | [] => by
    by_cases hv : v = Memory.unlisted <;> simp [Memory.insertCell, hv, Memory.read_cons, Ne.symm h]
  | (k', v') :: rest => by
    unfold Memory.insertCell
    split_ifs with hlt hv heq hv
    · rfl
    · exact if_neg (Ne.symm h)
    · exact (if_neg (heq ▸ Ne.symm h)).symm
    · rw [Memory.read_cons, Memory.read_cons, if_neg (Ne.symm h), if_neg (heq ▸ Ne.symm h)]
    · rw [Memory.read_cons, Memory.read_cons, Memory.insertCell_read_other h]

/-- A byte just written is what the address reads as. -/
theorem Memory.read_write_same {m : Memory} (addr : Nibble) (v : Byte) (hm : m.wf = true) :
    (m.write addr v).read addr = v :=
  Memory.insertCell_read_same (lo := 0) hm

/-- A write leaves every other address as it was. -/
theorem Memory.read_write_other (m : Memory) {addr other : Nibble} (v : Byte) (h : other ≠ addr) :
    (m.write addr v).read other = m.read other :=
  Memory.insertCell_read_other (fun e => h (BitVec.eq_of_toNat_eq e))

end Sys2Proof.Machine
end

