-- ==== Sys2Proof/Laws/PerInstr.lean ====
section
/-! SUPPORT. Statements for all instructions, one lemma per constructor. -/

namespace Sys2Proof.Laws

/-- The word of the instruction holds its opcode in the high nibble and its immediate, or 0, in the
low nibble (R51, R54). -/
def EncodedFields.Statement (i : Instr) : Prop :=
  opField (encode i) = opcodeOf i ∧ imField (encode i) = lowNibbleOf i

theorem EncodedFields.addAIm (im : Nibble) : EncodedFields.Statement (.addAIm im) := by
  revert im; unfold EncodedFields.Statement; decide

theorem EncodedFields.movAB : EncodedFields.Statement .movAB := ⟨rfl, rfl⟩

theorem EncodedFields.inA : EncodedFields.Statement .inA := ⟨rfl, rfl⟩

theorem EncodedFields.movAIm (im : Nibble) : EncodedFields.Statement (.movAIm im) := by
  revert im; unfold EncodedFields.Statement; decide

theorem EncodedFields.movBA : EncodedFields.Statement .movBA := ⟨rfl, rfl⟩

theorem EncodedFields.addBIm (im : Nibble) : EncodedFields.Statement (.addBIm im) := by
  revert im; unfold EncodedFields.Statement; decide

theorem EncodedFields.inB : EncodedFields.Statement .inB := ⟨rfl, rfl⟩

theorem EncodedFields.movBIm (im : Nibble) : EncodedFields.Statement (.movBIm im) := by
  revert im; unfold EncodedFields.Statement; decide

theorem EncodedFields.unassigned8 : EncodedFields.Statement .unassigned8 := ⟨rfl, rfl⟩

theorem EncodedFields.outB : EncodedFields.Statement .outB := ⟨rfl, rfl⟩

theorem EncodedFields.unassignedA : EncodedFields.Statement .unassignedA := ⟨rfl, rfl⟩

theorem EncodedFields.outIm (im : Nibble) : EncodedFields.Statement (.outIm im) := by
  revert im; unfold EncodedFields.Statement; decide

theorem EncodedFields.unassignedC : EncodedFields.Statement .unassignedC := ⟨rfl, rfl⟩

theorem EncodedFields.unassignedD : EncodedFields.Statement .unassignedD := ⟨rfl, rfl⟩

theorem EncodedFields.jncIm (im : Nibble) : EncodedFields.Statement (.jncIm im) := by
  revert im; unfold EncodedFields.Statement; decide

theorem EncodedFields.jmpIm (im : Nibble) : EncodedFields.Statement (.jmpIm im) := by
  revert im; unfold EncodedFields.Statement; decide

end Sys2Proof.Laws
end

