-- ==== Sys2Proof/Laws/Step.lean ====
section
/-! SUPPORT. The state each instruction leads to, and the step in terms of it. -/

namespace Sys2Proof.Machine

/-- The state after an instruction. -/
def afterInstr (i : Instr) (s : State) : State :=
  match i with
  | .addAIm im => addInto .regA .regA im s
  | .movAB => transfer .regA .regB s
  | .inA => transfer .regA .inLine s
  | .movAIm im => transfer .regA (.imm im) s
  | .movBA => transfer .regB .regA s
  | .addBIm im => addInto .regB .regB im s
  | .inB => transfer .regB .inLine s
  | .movBIm im => transfer .regB (.imm im) s
  | .unassigned8 => s.advance
  | .outB => transfer .outLine .regB s
  | .unassignedA => s.advance
  | .outIm im => transfer .outLine (.imm im) s
  | .unassignedC => s.advance
  | .unassignedD => s.advance
  | .jncIm im => jumpIfNoCarry im s
  | .jmpIm im => jump im s

/-- Executing an instruction is `afterInstr`: the one place where the meanings are unfolded. -/
theorem exec_eq_afterInstr (i : Instr) (s : State) : exec i s = .next (afterInstr i s) := by
  cases i <;> rfl

/-- No instruction writes memory (R32). -/
theorem afterInstr_mem (i : Instr) (s : State) : (afterInstr i s).mem = s.mem := by
  cases i <;> simp [afterInstr, transfer_spec, addInto_spec, jump_spec, jumpIfNoCarry_spec]

/-- No instruction writes IN_line (R16). -/
theorem afterInstr_inLine (i : Instr) (s : State) : (afterInstr i s).inLine = s.inLine := by
  cases i <;> simp [afterInstr, transfer_spec, addInto_spec, jump_spec, jumpIfNoCarry_spec]

end Sys2Proof.Machine
end

