-- ==== Sys2Proof/Laws/Runs.lean ====
section
/-! SUPPORT. Runs, power-on and reset, each unfolded once. -/

namespace Sys2Proof.Machine

/-- A step is the instruction's next state. -/
theorem step_eq_afterInstr (s : State) : step s = .next (afterInstr (nextInstr s) s) :=
  exec_eq_afterInstr _ _

/-- A run of no steps stays where it is. -/
theorem runSteps_zero (s : State) : runSteps 0 s = .next s := rfl

/-- A run of one step more goes on from the next state. -/
theorem runSteps_succ (n : Nat) (s : State) :
    runSteps (n + 1) s = runSteps n (afterInstr (nextInstr s) s) := by
  have h : Sys2Proof.core.step s = .next (afterInstr (nextInstr s) s) := step_eq_afterInstr s
  unfold runSteps
  exact (Host.Core.run.eq_2 Sys2Proof.core s n).trans (by rw [h])

@[simp] theorem powerOn_mem (image : List Byte) : (powerOn image).mem = Memory.load image [] := by
  rw [powerOn, State.setMem_mem, State.reset_mem]

@[simp] theorem powerOn_pc (image : List Byte) : (powerOn image).pc = 0 := by
  rw [powerOn, State.setMem_pc, State.reset_pc]

/-- Reset is power-on with the image loaded over the memory there was. -/
theorem resetMachine_eq (image : List Byte) (s : State) :
    resetMachine image s = (powerOn image).setMem (s.mem.load image) := by
  apply State.ext_fields <;> simp [resetMachine, powerOn]

@[simp] theorem resetMachine_mem (image : List Byte) (s : State) :
    (resetMachine image s).mem = s.mem.load image := by
  rw [resetMachine, State.setMem_mem]

/-- The host's step of the block always completes. -/
theorem stepMachine_eq (counts : Bool) (l : ControlLoop) :
    l.stepMachine counts = .next { l with
      machine := afterInstr (nextInstr l.machine) l.machine
      cycles := if counts then l.cycles + 1 else l.cycles } := by
  simp [ControlLoop.stepMachine, step_eq_afterInstr]

/-- An iteration in Manual mode is the poll alone. -/
theorem iterate_manual {l : ControlLoop} (hr : l.running = true) (hm : l.mode = .manual)
    (key : Option HostCommand) : l.iterate key = l.poll key := by
  simp only [ControlLoop.iterate, hr, hm, if_true]

/-- An iteration in Auto mode is one step and then the poll. -/
theorem iterate_auto {l : ControlLoop} (hr : l.running = true) (hm : l.mode = .auto)
    (key : Option HostCommand) :
    l.iterate key = ControlLoop.poll key { l with
      machine := afterInstr (nextInstr l.machine) l.machine
      cycles := if Config.autoCountsCycles then l.cycles + 1 else l.cycles } := by
  simp only [ControlLoop.iterate, hr, hm, if_true, stepMachine_eq]

/-- After quit an iteration does nothing. -/
theorem iterate_stopped {l : ControlLoop} (hr : l.running = false) (key : Option HostCommand) :
    l.iterate key = .next l := by
  simp [ControlLoop.iterate, hr]

end Sys2Proof.Machine
end

