-- ==== Sys2Proof/Tests/Slice0.lean ====
section
/-! SUPPORT. Tests. Expected results are the vectors of spec/95_test_vectors.md, named in each comment,
or words written out from 30_encoding.md R54; then a witness for every hypothesis of a statement. -/

namespace Sys2Proof.Tests

open Sys2Proof.Machine

/-- A state from 95_test_vectors.md's tuple (PC, A, B, C, IN, OUT), with empty memory. -/
def st (pc a b : Nibble) (c : Bool) (inLine outLine : Nibble) : State :=
  ⟨[], a, b, c, pc, inLine, outLine⟩

/-- The tuple after one step on a byte placed at PC. -/
def stepByte (byte : Nat) (s : State) : Option (Nibble × Nibble × Nibble × Bool × Nibble × Nibble) :=
  match step (s.withFetchWord 8 byte) with
  | .next t => some (t.pc, t.a, t.b, t.c, t.inLine, t.outLine)
  | .fault _ => none
  | .refused _ => none

/-! ### Well-formedness: each check refuses an ill-formed term (R50, R53) -/

theorem test_immediate_15_in_range : immediateInRange 15 = true := by decide
theorem test_immediate_16_refused : immediateInRange 16 = false := by decide
theorem test_table_word_255_in_range : tableWordInRange 8 255 = true := by decide
theorem test_table_word_256_refused : tableWordInRange 8 256 = false := by decide
theorem test_table_word_of_16_bits_refused : tableWordInRange 16 0 = false := by decide
theorem test_decodeTableWord_refuses_256 : decodeTableWord 8 256 = none := by decide
/-- A term of `Instr` is always well-formed: its immediate is four bits (R11). -/
theorem test_every_instr_wellFormed (i : Instr) : i.wellFormed = true := by
  cases i <;> simp [Instr.wellFormed, immediateInRange] <;> omega

/-! ### Decode: one word per constructor, written from R54 (95_test_vectors.md 2.1) -/

theorem test_decode_addAIm : decode 0b00000000#8 = .addAIm 0 := by decide
theorem test_decode_movAB : decode 0b00011111#8 = .movAB := by decide
theorem test_decode_inA : decode 0b00100101#8 = .inA := by decide
theorem test_decode_movAIm : decode 0b00111100#8 = .movAIm 12 := by decide
theorem test_decode_movBA : decode 0b01000111#8 = .movBA := by decide
theorem test_decode_addBIm : decode 0b01011010#8 = .addBIm 10 := by decide
theorem test_decode_inB : decode 0b01100001#8 = .inB := by decide
theorem test_decode_movBIm : decode 0b01111110#8 = .movBIm 14 := by decide
theorem test_decode_unassigned8 : decode 0b10001111#8 = .unassigned8 := by decide
theorem test_decode_outB : decode 0b10010011#8 = .outB := by decide
theorem test_decode_unassignedA : decode 0b10100000#8 = .unassignedA := by decide
theorem test_decode_outIm : decode 0b10111001#8 = .outIm 9 := by decide
theorem test_decode_unassignedC : decode 0b11000001#8 = .unassignedC := by decide
theorem test_decode_unassignedD : decode 0b11010010#8 = .unassignedD := by decide
theorem test_decode_jncIm : decode 0b11100110#8 = .jncIm 6 := by decide
theorem test_decode_jmpIm : decode 0b11111011#8 = .jmpIm 11 := by decide
/-- The reverse direction, on the words of program P1 (W8). -/
theorem test_encode_words :
    [encode (.movAIm 1), encode (.outIm 5), encode (.jmpIm 0)] = [0x31#8, 0xB5#8, 0xF0#8] := by decide

/-! ### Steps (95_test_vectors.md 2.2 to 2.6; the vector's name in the theorem's) -/

theorem test_addA_A3 : stepByte 0x0F (st 0 1 0 false 0 0) = some (1, 0, 0, true, 0, 0) := by decide
theorem test_addA_A8 : stepByte 0x00 (st 5 15 3 true 2 4) = some (6, 15, 3, false, 2, 4) := by decide
theorem test_addB_A13 : stepByte 0x55 (st 0 0 10 true 0 0) = some (1, 0, 15, false, 0, 0) := by decide
theorem test_addB_A14 : stepByte 0x5E (st 0 9 3 false 0 0) = some (1, 9, 1, true, 0, 0) := by decide
theorem test_movAB_M2 : stepByte 0x1F (st 0 3 12 true 0 0) = some (1, 12, 12, false, 0, 0) := by decide
theorem test_movAB_M3 : stepByte 0x10 (st 0 7 7 true 0 0) = some (1, 7, 7, false, 0, 0) := by decide
theorem test_movAIm_M4 : stepByte 0x30 (st 0 9 0 true 0 0) = some (1, 0, 0, false, 0, 0) := by decide
theorem test_movAIm_M5 : stepByte 0x3F (st 15 0 0 false 0 0) = some (0, 15, 0, false, 0, 0) := by decide
theorem test_movBA_M6 : stepByte 0x40 (st 0 12 3 true 0 0) = some (1, 12, 12, false, 0, 0) := by decide
theorem test_movBA_M7 : stepByte 0x4A (st 0 12 3 false 0 0) = some (1, 12, 12, false, 0, 0) := by decide
theorem test_movBIm_M8 : stepByte 0x70 (st 0 0 9 true 0 0) = some (1, 0, 0, false, 0, 0) := by decide
theorem test_movBIm_M9 : stepByte 0x7F (st 0 0 0 true 0 0) = some (1, 0, 15, false, 0, 0) := by decide
theorem test_inA_I1 : stepByte 0x20 (st 0 0 0 true 15 0) = some (1, 15, 0, false, 15, 0) := by decide
theorem test_inA_I2 : stepByte 0x2A (st 0 0 0 false 11 0) = some (1, 11, 0, false, 11, 0) := by decide
theorem test_inB_I3 : stepByte 0x60 (st 0 0 6 false 0 0) = some (1, 0, 0, false, 0, 0) := by decide
theorem test_inB_I4 : stepByte 0x60 (st 15 4 6 true 9 3) = some (0, 4, 9, false, 9, 3) := by decide
theorem test_outB_O1 : stepByte 0x90 (st 0 0 13 true 0 0) = some (1, 0, 13, false, 0, 13) := by decide
theorem test_outB_O2 : stepByte 0x9C (st 0 0 0 false 0 7) = some (1, 0, 0, false, 0, 0) := by decide
theorem test_outIm_O3 : stepByte 0xB0 (st 0 0 0 true 0 5) = some (1, 0, 0, false, 0, 0) := by decide
theorem test_outIm_O4 : stepByte 0xBF (st 0 3 4 false 5 0) = some (1, 3, 4, false, 5, 15) := by decide
theorem test_jnc_J1 : stepByte 0xE9 (st 5 1 2 false 3 4) = some (9, 1, 2, false, 3, 4) := by decide
theorem test_jnc_J3 : stepByte 0xE0 (st 15 0 0 true 0 0) = some (0, 0, 0, true, 0, 0) := by decide
theorem test_jmp_J7 : stepByte 0xFF (st 0 0 0 true 0 0) = some (15, 0, 0, true, 0, 0) := by decide
theorem test_jmp_J9 : stepByte 0xF3 (st 3 1 1 true 1 1) = some (3, 1, 1, true, 1, 1) := by decide
theorem test_unassigned8_U1 : stepByte 0x80 (st 9 3 4 true 6 5) = some (10, 3, 4, true, 6, 5) := by decide
theorem test_unassignedA_U2 : stepByte 0xAF (st 15 1 2 true 3 4) = some (0, 1, 2, true, 3, 4) := by decide
theorem test_unassignedC_U3 : stepByte 0xC5 (st 0 0 0 false 0 0) = some (1, 0, 0, false, 0, 0) := by decide
theorem test_unassignedD_U4 : stepByte 0xDD (st 7 15 15 true 15 15) = some (8, 15, 15, true, 15, 15) := by decide

/-! ### Loader, reset and host (95_test_vectors.md 2.7, 2.8, W7; R58) -/

theorem test_load_L2 : (powerOn [0x31, 0xB5, 0xF0]).mem = [(0, 0x31), (1, 0xB5), (2, 0xF0)] := by decide
/-- L3, on twenty bytes 1 to 20: sixteen are kept. -/
theorem test_load_L3 :
    memoryDump (powerOn ((List.range 20).map fun n => BitVec.ofNat 8 (n + 1))) =
      (List.range 16).map fun n => BitVec.ofNat 8 (n + 1) := by decide
theorem test_reset_R1 : resetMachine [0x31] (st 9 3 4 true 6 5) = powerOn [0x31] := by decide
theorem test_parse_1011 : parseInput ['1', '0', '1', '1'] = some 11 := by decide
theorem test_parse_15 : parseInput ['1', '5'] = some 15 := by decide
theorem test_parse_16 : parseInput ['1', '6'] = none := by decide
theorem test_parse_10b1 : parseInput ['1', '0', 'b', '1'] = none := by decide
theorem test_parse_empty : parseInput [] = none := by decide
theorem test_parse_011 : parseInput ['0', '1', '1'] = some 11 := by decide
theorem test_parse_0015 : parseInput ['0', '0', '1', '5'] = none := by decide
theorem test_parse_minus_1 : parseInput ['-', '1'] = none := by decide
theorem test_assemble_ADD_B_15 :
    assemble ['A', 'D', 'D', ' ', 'B', ',', '1', '5'] = some 0x5F#8 := by decide
theorem test_assemble_MOV_A_binary :
    assemble ['M', 'O', 'V', ' ', 'A', ',', '0', 'b', '0', '0', '0', '1'] = some 0x31#8 := by decide
theorem test_assemble_UNKNOWN : assemble ['U', 'N', 'K', 'N', 'O', 'W', 'N', ' ', '8', '0'] = none := by decide

/-! ### Witnesses: for every statement with hypotheses, a state that meets them -/

/-- A state with the bytes of `image` in memory. -/
def prog (image : List Byte) (pc : Nibble) (c : Bool) : State := { powerOn image with pc := pc, c := c }

theorem witness_UnassignedOpcodes :
    (∀ k < 2, ∀ u, runSteps k (prog [0x80, 0xAF, 0xE5] 0 true) = .next u → isUnassigned (nextInstr u) = true) ∧
    ∃ t, runSteps 2 (prog [0x80, 0xAF, 0xE5] 0 true) = .next t ∧ nextInstr t = .jncIm 5 := by
  refine ⟨?_, _, rfl, by decide⟩
  intro k hk u h
  have hk' : k = 0 ∨ k = 1 := by omega
  obtain rfl | rfl := hk' <;> cases h <;> decide
theorem witness_JncResult :
    nextInstr (prog [0, 0, 0, 0, 0xE4] 4 false) = .jncIm 4 ∧ (prog [0, 0, 0, 0, 0xE4] 4 false).c = false := by
  decide
theorem witness_JmpResult_self : nextInstr (prog [0, 0, 0, 0xF3] 3 true) = .jmpIm 3 := by decide
/-- The boundary: the successor of PC 15 is 0. -/
theorem witness_JmpResult_successor : (0 : Nibble).toNat = ((st 15 0 0 true 0 0).pc.toNat + 1) % 16 := by decide
theorem witness_StepRunsDecodedInstruction :
    decode ((prog [0x31] 0 false).mem.read (prog [0x31] 0 false).pc) = .movAIm 1 ∧
      Instr.wellFormed (.movAIm 1) = true := by decide
theorem witness_DecodeEncodeAgree : Instr.wellFormed (.jmpIm 15) = true := by decide
theorem witness_MemoryInvariantKeptByStep :
    HoldsImage [0x31, 0xB5] (prog [0x31, 0xB5] 1 true) ∧
      ∃ t, step (prog [0x31, 0xB5] 1 true) = .next t := by
  exact ⟨⟨by decide, by decide⟩, _, rfl⟩
theorem witness_HostRunKeepsImage :
    HoldsImage [0x31] (ControlLoop.mk (prog [0x31] 0 true) .auto 7 [0x31] true).machine :=
  ⟨by decide, by decide⟩
theorem witness_CarryPersists_jnc :
    ∃ t, step (prog [0x01, 0xE5] 0 false) = .next t ∧ nextInstr t = .jncIm 5 :=
  ⟨_, rfl, by decide⟩
theorem witness_CarryPersists_run :
    ∀ k < 2, ∀ u, runSteps k (prog [0xE5, 0x80] 0 true) = .next u → keepsCarry (nextInstr u) = true := by
  intro k hk u h
  have hk' : k = 0 ∨ k = 1 := by omega
  obtain rfl | rfl := hk' <;> cases h <;> decide
theorem witness_CarryPersists_clear : clearsCarry (nextInstr (prog [0x40] 0 true)) = true := by decide
/-- Program P4's shape: a carry, a MOV, a JNC. -/
theorem witness_CarryPersists_cleared_jnc :
    ∃ t u, step { prog [0x01, 0x40, 0xE6] 0 false with a := 15 } = .next t ∧ t.c = true ∧
      clearsCarry (nextInstr t) = true ∧ step t = .next u ∧ nextInstr u = .jncIm 6 :=
  ⟨_, _, rfl, by decide, by decide, rfl, by decide⟩
theorem witness_FetchIsTheOnlyMemoryRead :
    Memory.read [(3, 0xF0)] (prog [0xB5] 1 true).pc = (prog [0xB5] 1 true).mem.read (prog [0xB5] 1 true).pc ∧
      [(3, 0xF0)] ≠ (prog [0xB5] 1 true).mem := by decide
theorem witness_SelfJump_jmp :
    nextInstr (prog [0, 0, 0, 0xF3] 3 true) = .jmpIm (prog [0, 0, 0, 0xF3] 3 true).pc := by decide
theorem witness_SelfJump_jnc :
    nextInstr (prog [0xE0] 0 false) = .jncIm (prog [0xE0] 0 false).pc ∧ (prog [0xE0] 0 false).c = false := by
  decide
/-- A canonical memory with an entry at the last address. -/
theorem witness_LoaderFillsMemory : Memory.wf [(0, 0x12), (15, 0xFF)] = true := by decide
theorem witness_ResetZeroesAndReloads :
    (ControlLoop.mk { st 9 3 4 true 6 5 with mem := [(15, 0xFF)] } .auto 9 [0x31] true).machine.mem.wf = true := by
  decide
theorem witness_ResetEqualsPowerOn :
    State.mem { st 9 3 4 true 6 5 with mem := [(2, 0x10), (15, 0xFF)] } |>.wf := by decide
theorem witness_PlacedWordRunsNext : (prog [0x31] 15 false).mem.wf = true ∧ 255 < 256 := by decide
theorem witness_HostActions_manual :
    (ControlLoop.mk State.reset .manual 0 [] true).running = true ∧
      (ControlLoop.mk State.reset .manual 0 [] true).mode = .manual := ⟨rfl, rfl⟩
theorem witness_HostActions_auto :
    (ControlLoop.mk State.reset .auto 0 [] true).running = true ∧
      (ControlLoop.mk State.reset .auto 0 [] true).mode = .auto := ⟨rfl, rfl⟩
theorem witness_HostActions_quit : (ControlLoop.mk State.reset .auto 0 [] false).running = false := rfl
/-- Both modes of HostIterationTakesAtMostOneStep, with the key that is in the wrong mode in Auto. -/
theorem witness_HostIteration :
    ∃ l l' : ControlLoop, ∃ key : Option HostCommand, key = some .step ∧
      l.running = true ∧ l.mode = .auto ∧ l'.running = true ∧ l'.mode = .manual :=
  ⟨.mk State.reset .auto 0 [] true, .mk State.reset .manual 0 [] true, some .step, rfl, rfl, rfl, rfl, rfl⟩
theorem witness_SetInputParse_accepted : parseInput ['1', '1', '1', '1'] = some 15 := by decide
theorem witness_SetInputParse_rejected : parseInput ['1', '0', '0', '0', '0'] = none := by decide
theorem witness_AssemblyRoundTrip_text : assembleInstr ['O', 'U', 'T', ' ', '5'] = some (.outIm 5) := by decide
theorem witness_AssemblyRoundTrip_unassigned : isUnassigned .unassignedD = true := by decide

end Sys2Proof.Tests
end

section
/-! SUPPORT. Which elements an instruction leaves alone (R10), and how the instructions commute with an
update of C, IN_line or OUT_line: the laws that say who reads them (R14, R16, R17). The cases of each
proof are grouped by the shared effect that the instruction's meaning is. -/

namespace Sys2Proof.Machine

/-! ### Frames -/

/-- An instruction that R10 does not list as writing A leaves A. -/
theorem afterInstr_a_of_not_writesA {i : Instr} (h : writesA i = false) (s : State) :
    (afterInstr i s).a = s.a := by
  cases i with
  | addAIm | movAB | inA | movAIm => cases h
  | movBA | inB | movBIm | outB | outIm => simp [afterInstr, transfer_spec]
  | addBIm => simp [afterInstr, addInto_spec]
  | jncIm => simp [afterInstr, jumpIfNoCarry_spec]
  | jmpIm | unassigned8 | unassignedA | unassignedC | unassignedD => rfl

/-- An instruction that R10 does not list as writing B leaves B. -/
theorem afterInstr_b_of_not_writesB {i : Instr} (h : writesB i = false) (s : State) :
    (afterInstr i s).b = s.b := by
  cases i with
  | addBIm | movBA | inB | movBIm => cases h
  | movAB | inA | movAIm | outB | outIm => simp [afterInstr, transfer_spec]
  | addAIm => simp [afterInstr, addInto_spec]
  | jncIm => simp [afterInstr, jumpIfNoCarry_spec]
  | jmpIm | unassigned8 | unassignedA | unassignedC | unassignedD => rfl

/-- An instruction that R10 does not list as writing OUT_line leaves OUT_line. -/
theorem afterInstr_outLine_of_not_writesOut {i : Instr} (h : writesOut i = false) (s : State) :
    (afterInstr i s).outLine = s.outLine := by
  cases i with
  | outB | outIm => cases h
  | movAB | inA | movAIm | movBA | inB | movBIm => simp [afterInstr, transfer_spec]
  | addAIm | addBIm => simp [afterInstr, addInto_spec]
  | jncIm => simp [afterInstr, jumpIfNoCarry_spec]
  | jmpIm | unassigned8 | unassignedA | unassignedC | unassignedD => rfl

/-- JNC, JMP and the unassigned opcodes leave C (R14). -/
theorem afterInstr_c_of_keepsCarry {i : Instr} (h : keepsCarry i = true) (s : State) :
    (afterInstr i s).c = s.c := by
  cases i with
  | addAIm | addBIm | movAB | inA | movAIm | movBA | inB | movBIm | outB | outIm => cases h
  | jncIm => simp [afterInstr, jumpIfNoCarry_spec]
  | jmpIm | unassigned8 | unassignedA | unassignedC | unassignedD => rfl

/-- MOV, IN and OUT clear C (R14, R73). -/
theorem afterInstr_c_of_clearsCarry {i : Instr} (h : clearsCarry i = true) (s : State) :
    (afterInstr i s).c = false := by
  cases i with
  | addAIm | addBIm | jncIm | jmpIm | unassigned8 | unassignedA | unassignedC | unassignedD => cases h
  | movAB | inA | movAIm | movBA | inB | movBIm | outB | outIm => simp [afterInstr, transfer_spec]

/-- No instruction changes a byte of memory, as it reads (R32). -/
theorem sameMemory_afterInstr (i : Instr) (s : State) : SameMemory s (afterInstr i s) := by
  intro addr
  rw [afterInstr_mem]

/-! ### What a source reads -/

/-- C is no source of a data transfer (R14). -/
@[simp] theorem Source.value_setC (src : Source) (s : State) (v : Bool) :
    src.value (s.setC v) = src.value s := by
  cases src <;> rfl

/-- OUT_line is no source of a data transfer (R17). -/
@[simp] theorem Source.value_setOutLine (src : Source) (s : State) (v : Nibble) :
    src.value (s.setOutLine v) = src.value s := by
  cases src <;> rfl

/-- A source other than IN_line does not see IN_line. -/
theorem Source.value_setInLine {src : Source} (h : src ≠ .inLine) (s : State) (v : Nibble) :
    src.value (s.setInLine v) = src.value s := by
  cases src with
  | inLine => exact absurd rfl h
  | regA | regB | imm => rfl

/-! ### The effects and an update of C -/

/-- A MOV, IN or OUT overwrites C without reading it. -/
theorem transfer_setC (d : Dest) (src : Source) (s : State) (v : Bool) :
    transfer d src (s.setC v) = transfer d src s := by
  unfold transfer
  rw [Source.value_setC]
  cases d <;> rfl

/-- An ADD has no carry-in: it overwrites C without reading it (R72). -/
theorem addInto_setC (d : Dest) (x : Source) (im : Nibble) (s : State) (v : Bool) :
    addInto d x im (s.setC v) = addInto d x im s := by
  unfold addInto
  rw [Source.value_setC]
  cases d <;> rfl

/-- An instruction that writes C does not see the C before it. -/
theorem afterInstr_setC_of_not_keepsCarry {i : Instr} (h : keepsCarry i = false) (s : State)
    (v : Bool) : afterInstr i (s.setC v) = afterInstr i s := by
  cases i with
  | jncIm | jmpIm | unassigned8 | unassignedA | unassignedC | unassignedD => cases h
  | addAIm | addBIm => exact addInto_setC ..
  | movAB | inA | movAIm | movBA | inB | movBIm | outB | outIm => exact transfer_setC ..

/-- An instruction that keeps C carries a change of C along and, but for the PC of JNC, shows it
nowhere else. -/
theorem afterInstr_setC_of_keepsCarry {i : Instr} (h : keepsCarry i = true) (s : State) (v : Bool) :
    ∃ target, afterInstr i (s.setC v) = ((afterInstr i s).setC v).setPc target ∧
      ((∃ im, i = .jncIm im) ∨ target = (afterInstr i s).pc) := by
  cases i with
  | addAIm | addBIm | movAB | inA | movAIm | movBA | inB | movBIm | outB | outIm => cases h
  | jncIm im =>
    refine ⟨(afterInstr (.jncIm im) (s.setC v)).pc, ?_, .inl ⟨im, rfl⟩⟩
    simp only [afterInstr, jumpIfNoCarry_spec]
    rfl
  | jmpIm | unassigned8 | unassignedA | unassignedC | unassignedD => exact ⟨_, rfl, .inr rfl⟩

/-! ### The effects and an update of IN_line -/

/-- A transfer from elsewhere commutes with an update of IN_line. -/
theorem transfer_setInLine (d : Dest) {src : Source} (h : src ≠ .inLine) (s : State) (v : Nibble) :
    transfer d src (s.setInLine v) = (transfer d src s).setInLine v := by
  unfold transfer
  rw [Source.value_setInLine h]
  cases d <;> rfl

/-- An ADD to a register commutes with an update of IN_line. -/
theorem addInto_setInLine (d : Dest) {x : Source} (h : x ≠ .inLine) (im : Nibble) (s : State)
    (v : Nibble) : addInto d x im (s.setInLine v) = (addInto d x im s).setInLine v := by
  unfold addInto
  rw [Source.value_setInLine h]
  cases d <;> rfl

/-- A conditional jump commutes with an update of IN_line. -/
theorem jumpIfNoCarry_setInLine (target : Nibble) (s : State) (v : Nibble) :
    jumpIfNoCarry target (s.setInLine v) = (jumpIfNoCarry target s).setInLine v := by
  simp only [jumpIfNoCarry_spec]
  rfl

/-- An instruction that does not read IN_line commutes with an update of it (R16). -/
theorem afterInstr_setInLine {i : Instr} (h : readsIn i = false) (s : State) (v : Nibble) :
    afterInstr i (s.setInLine v) = (afterInstr i s).setInLine v := by
  cases i with
  | inA | inB => cases h
  | addAIm | addBIm => exact addInto_setInLine _ (by decide) ..
  | movAB | movBA | outB => exact transfer_setInLine _ (by decide) ..
  | movAIm | movBIm | outIm => exact transfer_setInLine _ Source.noConfusion ..
  | jncIm => exact jumpIfNoCarry_setInLine ..
  | jmpIm | unassigned8 | unassignedA | unassignedC | unassignedD => rfl

/-! ### The effects and an update of OUT_line -/

/-- An OUT overwrites OUT_line without reading it. -/
theorem transfer_outLine_setOutLine (src : Source) (s : State) (v : Nibble) :
    transfer .outLine src (s.setOutLine v) = transfer .outLine src s := by
  unfold transfer
  rw [Source.value_setOutLine]
  rfl

/-- A transfer to a register commutes with an update of OUT_line. -/
theorem transfer_setOutLine {d : Dest} (h : d ≠ .outLine) (src : Source) (s : State) (v : Nibble) :
    transfer d src (s.setOutLine v) = (transfer d src s).setOutLine v := by
  unfold transfer
  rw [Source.value_setOutLine]
  cases d with
  | outLine => exact absurd rfl h
  | regA | regB => rfl

/-- An ADD to a register commutes with an update of OUT_line. -/
theorem addInto_setOutLine {d : Dest} (h : d ≠ .outLine) (x : Source) (im : Nibble) (s : State)
    (v : Nibble) : addInto d x im (s.setOutLine v) = (addInto d x im s).setOutLine v := by
  unfold addInto
  rw [Source.value_setOutLine]
  cases d with
  | outLine => exact absurd rfl h
  | regA | regB => rfl

/-- A conditional jump commutes with an update of OUT_line. -/
theorem jumpIfNoCarry_setOutLine (target : Nibble) (s : State) (v : Nibble) :
    jumpIfNoCarry target (s.setOutLine v) = (jumpIfNoCarry target s).setOutLine v := by
  simp only [jumpIfNoCarry_spec]
  rfl

/-- An OUT does not see the OUT_line before it (R17). -/
theorem afterInstr_setOutLine_of_writesOut {i : Instr} (h : writesOut i = true) (s : State)
    (v : Nibble) : afterInstr i (s.setOutLine v) = afterInstr i s := by
  cases i with
  | outB | outIm => exact transfer_outLine_setOutLine ..
  | addAIm | addBIm | movAB | inA | movAIm | movBA | inB | movBIm | jncIm | jmpIm | unassigned8
  | unassignedA | unassignedC | unassignedD => cases h

/-- An instruction other than an OUT commutes with an update of OUT_line (R17). -/
theorem afterInstr_setOutLine_of_not_writesOut {i : Instr} (h : writesOut i = false) (s : State)
    (v : Nibble) : afterInstr i (s.setOutLine v) = (afterInstr i s).setOutLine v := by
  cases i with
  | outB | outIm => cases h
  | addAIm | addBIm => exact addInto_setOutLine (by decide) ..
  | movAB | inA | movAIm | movBA | inB | movBIm => exact transfer_setOutLine (by decide) ..
  | jncIm => exact jumpIfNoCarry_setOutLine ..
  | jmpIm | unassigned8 | unassignedA | unassignedC | unassignedD => rfl

/-! ### Loading the empty image -/

/-- The empty image puts 0x00 everywhere, which the canonical form does not list: loaded over an empty
memory it leaves it empty (R45). -/
theorem Memory.loadUpTo_nil_nil : ∀ n, Memory.loadUpTo [] n [] = []
  | 0 => rfl
  | n + 1 => by
    rw [Memory.loadUpTo, Memory.loadUpTo_nil_nil n]
    rfl

end Sys2Proof.Machine
end

section
/-! The statements about the state inventory, 10_state.md. -/

namespace Sys2Proof.Machine

/-- Settles O28: a frame lemma per element, split on whether the instruction is listed. -/
theorem onlyListedInstructionsWrite : Obligations.OnlyListedInstructionsWrite := by
  intro i s
  refine ⟨afterInstr i s, exec_eq_afterInstr i s, ?a, ?b, ?out, ?keeps, ?clears,
    afterInstr_inLine i s, sameMemory_afterInstr i s⟩
  case a => exact (Bool.eq_false_or_eq_true _).imp_right (afterInstr_a_of_not_writesA · s)
  case b => exact (Bool.eq_false_or_eq_true _).imp_right (afterInstr_b_of_not_writesB · s)
  case out => exact (Bool.eq_false_or_eq_true _).imp_right (afterInstr_outLine_of_not_writesOut · s)
  case keeps =>
    exact (Bool.eq_false_or_eq_true _).symm.imp_right (afterInstr_c_of_keepsCarry · s)
  case clears =>
    exact (Bool.eq_false_or_eq_true _).symm.imp_right (afterInstr_c_of_clearsCarry · s)

/-- Settles O29: an instruction that writes C ends in the same state, and one that keeps C in a state
that differs in C and, for JNC, in PC. -/
theorem carryReadOnlyByJnc : Obligations.CarryReadOnlyByJnc := by
  intro i s v
  refine ⟨_, _, exec_eq_afterInstr i s, exec_eq_afterInstr i (s.setC v), ?_⟩
  cases h : keepsCarry i with
  | false =>
    rw [afterInstr_setC_of_not_keepsCarry h]
    exact ⟨rfl, rfl, rfl, rfl, fun _ => rfl, .inr rfl, .inr rfl⟩
  | true =>
    obtain ⟨target, hstate, htarget⟩ := afterInstr_setC_of_keepsCarry h s v
    rw [hstate]
    exact ⟨rfl, rfl, rfl, rfl, fun _ => rfl, htarget, .inl rfl⟩

/-- Settles O30: no instruction writes IN_line, and all but IN A and IN B commute with an update of
it. -/
theorem inputLatchReadOnlyByIn : Obligations.InputLatchReadOnlyByIn := by
  intro i s v
  refine ⟨_, _, exec_eq_afterInstr i s, exec_eq_afterInstr i (s.setInLine v),
    afterInstr_inLine i s, afterInstr_inLine i (s.setInLine v), ?_⟩
  cases h : readsIn i with
  | true => exact .inl rfl
  | false =>
    rw [afterInstr_setInLine h]
    exact .inr ⟨rfl, rfl, rfl, rfl, rfl, fun _ => rfl⟩

/-- Settles O31: an OUT ends in the same state, and every other instruction commutes with an update of
OUT_line and leaves it. -/
theorem outputLatchReadByNothing : Obligations.OutputLatchReadByNothing := by
  intro i s v
  refine ⟨_, _, exec_eq_afterInstr i s, exec_eq_afterInstr i (s.setOutLine v), ?_⟩
  cases h : writesOut i with
  | true =>
    rw [afterInstr_setOutLine_of_writesOut h]
    exact ⟨⟨rfl, rfl, rfl, rfl, rfl, fun _ => rfl⟩, .inl ⟨rfl, rfl⟩⟩
  | false =>
    rw [afterInstr_setOutLine_of_not_writesOut h]
    exact ⟨⟨rfl, rfl, rfl, rfl, rfl, fun _ => rfl⟩,
      .inr ⟨rfl, afterInstr_outLine_of_not_writesOut h s, rfl⟩⟩

/-- Settles O35: the registers are reset's own fields, and power-on loads the empty image over the
empty memory. -/
theorem resetStateIsZero : Obligations.ResetStateIsZero := by
  have hload : Memory.load [] State.reset.mem = State.reset.mem := Memory.loadUpTo_nil_nil 16
  refine ⟨rfl, rfl, rfl, rfl, rfl, rfl, fun _ => rfl, ?_⟩
  rw [powerOn, hload]
  rfl

end Sys2Proof.Machine
end

section
/-! SUPPORT. The image in memory: what the loader leaves, what keeps the memory invariant `HoldsImage`,
how the instructions commute with a change of memory (R32, R33), and inductions over runs of the block
and of the host. -/

namespace Sys2Proof.Machine

/-! ### The loader -/

/-- The image's byte, zero-padded, by cases on the image's length (R45). -/
theorem imageByte_eq_dite (image : List Byte) (n : Nat) :
    imageByte image n = if h : n < image.length then image[n] else 0 := by
  unfold imageByte
  split_ifs with h
  · exact List.getD_eq_getElem _ _ h
  · exact List.getD_eq_default _ _ (Nat.not_lt.1 h)

/-- The first `n` rounds of the loader's loop fill the addresses below `n` and leave the others. -/
theorem Memory.read_loadUpTo {m : Memory} (image : List Byte) (addr : Nibble) (hm : m.wf = true) :
    ∀ n ≤ 16, (Memory.loadUpTo image n m).read addr =
      if addr.toNat < n then imageByte image addr.toNat else m.read addr
  | 0, _ => rfl
  | n + 1, hn => by
    have ih := Memory.read_loadUpTo image addr hm n (Nat.le_of_succ_le hn)
    have hround : (BitVec.ofNat 4 n).toNat = n := Nat.mod_eq_of_lt hn
    rw [Memory.loadUpTo]
    by_cases heq : addr = BitVec.ofNat 4 n
    · subst heq
      rw [Memory.read_write_same _ _ (Memory.loadUpTo_wf image hm n), hround,
        if_pos n.lt_succ_self]
    · have hne : addr.toNat ≠ n := fun h => heq (BitVec.eq_of_toNat_eq (h.trans hround.symm))
      have hiff : addr.toNat < n + 1 ↔ addr.toNat < n := by omega
      rw [Memory.read_write_other _ _ heq, ih]
      simp only [hiff]

/-- After loading, every address reads as the image's byte there. -/
theorem Memory.read_load {m : Memory} (image : List Byte) (addr : Nibble) (hm : m.wf = true) :
    (m.load image).read addr = imageByte image addr.toNat :=
  (Memory.read_loadUpTo image addr hm 16 (le_refl 16)).trans (if_pos addr.isLt)

/-! ### The memory invariant -/

/-- Loading an image over a memory in canonical form establishes the invariant for that image. -/
theorem holdsImage_of_load {image : List Byte} {m : Memory} {s : State} (hm : m.wf = true)
    (hs : s.mem = m.load image) : HoldsImage image s := by
  constructor
  · rw [hs]
    exact Memory.load_wf image hm
  · intro addr
    rw [hs]
    exact Memory.read_load image addr hm

/-- Power-on establishes the invariant (R141). -/
theorem powerOn_holdsImage (image : List Byte) : HoldsImage image (powerOn image) :=
  holdsImage_of_load State.reset_mem_wf (powerOn_mem image)

/-- Reset establishes the invariant again over any memory in canonical form (R140). -/
theorem resetMachine_holdsImage (image : List Byte) {s : State} (hs : s.mem.wf = true) :
    HoldsImage image (resetMachine image s) :=
  holdsImage_of_load hs (resetMachine_mem image s)

/-- The invariant speaks of the memory alone. -/
theorem HoldsImage.of_mem_eq {image : List Byte} {s t : State} (h : HoldsImage image s)
    (hmem : t.mem = s.mem) : HoldsImage image t := by
  unfold HoldsImage
  rw [hmem]
  exact h

/-- Every instruction keeps the invariant, since none writes memory (R32). -/
theorem HoldsImage.afterInstr {image : List Byte} {s : State} (h : HoldsImage image s) (i : Instr) :
    HoldsImage image (afterInstr i s) :=
  h.of_mem_eq (afterInstr_mem i s)

/-- Set-input writes at most IN_line, never memory (R132). -/
theorem setInputText_mem (text : List Char) (s : State) : (setInputText text s).mem = s.mem := by
  unfold setInputText
  split
  · exact State.setInLine_mem ..
  · rfl

/-- Under the invariant the fetched byte is the image's at PC. -/
theorem HoldsImage.fetch_eq {image : List Byte} {s : State} (h : HoldsImage image s) :
    fetch s = image.getD s.pc.toNat 0 :=
  h.2 s.pc

/-! ### The instructions and a change of memory -/

/-- Memory is no source of a data transfer (R34). -/
@[simp] theorem Source.value_setMem (src : Source) (s : State) (m : Memory) :
    src.value (s.setMem m) = src.value s := by
  cases src <;> rfl

/-- A MOV, IN or OUT commutes with a change of memory. -/
theorem transfer_setMem (d : Dest) (src : Source) (s : State) (m : Memory) :
    transfer d src (s.setMem m) = (transfer d src s).setMem m := by
  unfold transfer
  rw [Source.value_setMem]
  cases d <;> rfl

/-- An ADD commutes with a change of memory. -/
theorem addInto_setMem (d : Dest) (x : Source) (im : Nibble) (s : State) (m : Memory) :
    addInto d x im (s.setMem m) = (addInto d x im s).setMem m := by
  unfold addInto
  rw [Source.value_setMem]
  cases d <;> rfl

/-- A conditional jump commutes with a change of memory. -/
theorem jumpIfNoCarry_setMem (target : Nibble) (s : State) (m : Memory) :
    jumpIfNoCarry target (s.setMem m) = (jumpIfNoCarry target s).setMem m := by
  simp only [jumpIfNoCarry_spec]
  rfl

/-- Once fetched, an instruction neither reads nor writes memory (R32, R33). -/
theorem afterInstr_setMem (i : Instr) (s : State) (m : Memory) :
    afterInstr i (s.setMem m) = (afterInstr i s).setMem m := by
  cases i with
  | addAIm | addBIm => exact addInto_setMem ..
  | movAB | inA | movAIm | movBA | inB | movBIm | outB | outIm => exact transfer_setMem ..
  | jncIm => exact jumpIfNoCarry_setMem ..
  | jmpIm | unassigned8 | unassignedA | unassignedC | unassignedD => rfl

/-- The next instruction depends on no byte of memory but the one at PC (R33). -/
theorem nextInstr_setMem {s : State} {m : Memory} (h : m.read s.pc = s.mem.read s.pc) :
    nextInstr (s.setMem m) = nextInstr s :=
  congrArg decode h

/-! ### The word placed at PC -/

/-- A number below 256 is its own byte in the table's 8-bit numbering. -/
theorem tableByte_eight {w : Nat} (h : w < 256) : tableByte 8 w = BitVec.ofNat 8 w :=
  congrArg (BitVec.ofNat 8) (Nat.mod_eq_of_lt h)

/-- The placed word is the one the next step fetches. -/
theorem fetch_withFetchWord {s : State} (hs : s.mem.wf = true) (nbits w : Nat) :
    fetch (s.withFetchWord nbits w) = tableByte nbits w :=
  Memory.read_write_same s.pc _ hs

/-! ### The edge, one equation per branch (R46) -/

/-- `rst` has priority over everything. -/
theorem edge_of_rst {p : Inputs} (hrst : p.rst = true) (image : List Byte) (s : State) :
    edge image p s = .next (resetMachine image s) :=
  if_pos hrst

/-- Without `rst`, `step_en` makes a step, whatever `in_we` is. -/
theorem edge_of_stepEn {p : Inputs} (hrst : p.rst = false) (hstep : p.stepEn = true)
    (image : List Byte) (s : State) : edge image p s = step s := by
  simp [edge, hrst, hstep]

/-- `in_we` alone writes IN_line. -/
theorem edge_of_inWe {p : Inputs} (hrst : p.rst = false) (hstep : p.stepEn = false)
    (hin : p.inWe = true) (image : List Byte) (s : State) :
    edge image p s = .next (s.setInLine p.inData) := by
  simp [edge, hrst, hstep, hin]

/-- With none of the three the state holds. -/
theorem edge_of_none {p : Inputs} (hrst : p.rst = false) (hstep : p.stepEn = false)
    (hin : p.inWe = false) (image : List Byte) (s : State) : edge image p s = .next s := by
  simp [edge, hrst, hstep, hin]

/-- An update of IN_line leaves everything else. -/
theorem agreeButInLine_setInLine (s : State) (v : Nibble) : AgreeButInLine s (s.setInLine v) :=
  ⟨rfl, rfl, rfl, rfl, rfl, fun _ => rfl⟩

/-! ### Runs of the block and of the host -/

/-- A run completes, and keeps what every instruction keeps. -/
theorem runSteps_keeps {P : State → Prop} (hstep : ∀ i s, P s → P (afterInstr i s)) :
    ∀ (n : Nat) (s : State), P s → ∃ t, runSteps n s = .next t ∧ P t
  | 0, s, hs => ⟨s, runSteps_zero s, hs⟩
  | n + 1, s, hs => by
    rw [runSteps_succ]
    exact runSteps_keeps hstep n _ (hstep _ s hs)

/-- A run of the host completes, and keeps what every iteration completes with and keeps. -/
theorem hostRun_keeps {P : ControlLoop → Prop}
    (hiter : ∀ key l, P l → ∃ l', l.iterate key = .next l' ∧ P l') :
    ∀ (keys : List (Option HostCommand)) (l : ControlLoop), P l →
      ∃ l', l.hostRun keys = .next l' ∧ P l'
  | [], l, hl => ⟨l, rfl, hl⟩
  | key :: keys, l, hl => by
    obtain ⟨l₁, hl₁, hP⟩ := hiter key l hl
    rw [ControlLoop.hostRun, hl₁]
    exact hostRun_keeps hiter keys l₁ hP

/-- The step key in Manual mode makes one counted step of the block. -/
theorem perform_step_manual {l : ControlLoop} (h : l.mode = .manual) :
    l.perform .step = l.stepMachine true := by
  simp only [ControlLoop.perform, h]

/-- The step key in Auto mode makes no step of its own (U11). -/
theorem perform_step_auto {l : ControlLoop} (h : l.mode = .auto) :
    l.perform .step = .next l.stepKeyInAuto := by
  simp only [ControlLoop.perform, h]

/-- The host keeps `image` for reset, and the block's memory holds it. -/
def ControlLoop.KeepsImage (image : List Byte) (l : ControlLoop) : Prop :=
  l.image = image ∧ HoldsImage image l.machine

/-- Every action of the host completes and keeps the image: the step key runs one instruction at most,
set-input leaves memory, reset loads the image again, and the others leave the block alone (R131). -/
theorem perform_keepsImage {image : List Byte} (cmd : HostCommand) {l : ControlLoop}
    (h : l.KeepsImage image) : ∃ l', l.perform cmd = .next l' ∧ l'.KeepsImage image := by
  obtain ⟨himage, hholds⟩ := h
  cases cmd with
  | step =>
    cases hmode : l.mode with
    | manual =>
      rw [perform_step_manual hmode, stepMachine_eq]
      exact ⟨_, rfl, himage, hholds.afterInstr (nextInstr l.machine)⟩
    | auto =>
      rw [perform_step_auto hmode]
      exact ⟨_, rfl, himage, hholds⟩
  | setInput text => exact ⟨_, rfl, himage, hholds.of_mem_eq (setInputText_mem text l.machine)⟩
  | reset => exact ⟨_, rfl, himage, himage ▸ resetMachine_holdsImage l.image hholds.1⟩
  | enterAuto | enterManual | dumpMemory | help | quit | otherKey =>
    exact ⟨_, rfl, himage, hholds⟩

/-- Polling a key, or none, completes and keeps the image. -/
theorem poll_keepsImage {image : List Byte} (key : Option HostCommand) {l : ControlLoop}
    (h : l.KeepsImage image) : ∃ l', l.poll key = .next l' ∧ l'.KeepsImage image := by
  cases key with
  | none => exact ⟨l, rfl, h⟩
  | some cmd => exact perform_keepsImage cmd h

/-- An iteration completes and keeps the image: in Auto mode its step does, and then its poll. -/
theorem iterate_keepsImage {image : List Byte} (key : Option HostCommand) (l : ControlLoop)
    (h : l.KeepsImage image) : ∃ l', l.iterate key = .next l' ∧ l'.KeepsImage image := by
  cases hrun : l.running with
  | false => exact ⟨l, iterate_stopped hrun key, h⟩
  | true =>
    cases hmode : l.mode with
    | manual =>
      rw [iterate_manual hrun hmode]
      exact poll_keepsImage key h
    | auto =>
      rw [iterate_auto hrun hmode]
      exact poll_keepsImage key ⟨h.1, h.2.afterInstr _⟩

end Sys2Proof.Machine
end

section
/-! The statements about memory and loading, 20_memory.md. -/

namespace Sys2Proof.Machine

/-- Settles O20: the next state is that of an instruction, and none writes memory. -/
theorem memoryInvariantKeptByStep : Obligations.MemoryInvariantKeptByStep := by
  intro image s t hs hstep
  obtain rfl : afterInstr (nextInstr s) s = t :=
    Host.Outcome.next.inj ((step_eq_afterInstr s).symm.trans hstep)
  exact hs.afterInstr _

/-- Settles O22, by induction on the polled keys with the run's image fixed. -/
theorem hostRunKeepsImage : Obligations.HostRunKeepsImage :=
  fun keys l hl => hostRun_keeps iterate_keepsImage keys l ⟨rfl, hl⟩

/-- Settles O32: two memories with one byte at PC select the same instruction, and that instruction
commutes with the change of memory. -/
theorem fetchIsTheOnlyMemoryRead : Obligations.FetchIsTheOnlyMemoryRead := by
  refine ⟨fun _ => rfl, fun s m hm => ⟨_, step_eq_afterInstr s, ?_, afterInstr_mem _ s⟩⟩
  rw [step_eq_afterInstr, nextInstr_setMem hm, afterInstr_setMem]

/-- Settles O33: power-on establishes the memory invariant, every step keeps it, and it gives the
fetched byte. -/
theorem fetchSeesImageByte : Obligations.FetchSeesImageByte := by
  intro image n
  obtain ⟨s, hrun, hs⟩ := runSteps_keeps (P := HoldsImage image) (fun i _ h => h.afterInstr i) n
    (powerOn image) (powerOn_holdsImage image)
  exact ⟨s, hrun, hs.fetch_eq⟩

/-- Settles O36: the loader's result at every address, over any canonical memory and over power-on's. -/
theorem loaderFillsMemoryFromImage : Obligations.LoaderFillsMemoryFromImage := by
  refine ⟨?load, ?powerOn, rfl, fun _ => rfl⟩
  case load =>
    intro image m addr hm
    rw [Memory.read_load image addr hm, imageByte_eq_dite]
  case powerOn =>
    intro image addr
    exact ⟨rfl, ((powerOn_holdsImage image).2 addr).trans (imageByte_eq_dite image addr.toNat)⟩

/-- Settles O14: the step is defined so, and well-formedness plays no part. -/
theorem stepRunsDecodedInstruction : Obligations.StepRunsDecodedInstruction := by
  rintro i s rfl -
  rfl

/-- Settles O21: reset's memory lists nothing, and the empty image is 0x00 everywhere. -/
theorem memoryInvariantAtReset : Obligations.MemoryInvariantAtReset :=
  ⟨State.reset_mem_wf, fun _ => rfl⟩

/-- Settles O39: the branches of the edge in the order of their priority; the outputs are the state's
own fields. -/
theorem edgePriorities : Obligations.EdgePriorities := by
  intro image s e w d
  refine ⟨edge_of_rst rfl image s, edge_of_stepEn rfl rfl image s, ?inWe,
    edge_of_none rfl rfl rfl image s, rfl, rfl⟩
  case inWe =>
    exact ⟨_, edge_of_inWe rfl rfl rfl image s, rfl, agreeButInLine_setInLine s d⟩

/-- Settles O40: placing a byte is one write at PC, read back by the fetch. -/
theorem placedWordRunsNext : Obligations.PlacedWordRunsNext := by
  intro s w hs hw
  refine ⟨?_, rfl, Memory.write_wf s.pc _ hs, fun addr hne => Memory.read_write_other s.mem _ hne⟩
  rw [step, fetch_withFetchWord hs, tableByte_eight hw]

end Sys2Proof.Machine
end

section
/-! SUPPORT. The encoding: the two fields of a byte, the decoder and the encoder on them, the opcode
table row by row, and the assembly text (R50 to R58). -/

namespace Sys2Proof.Machine

/-! ### The two fields of a byte (R51) -/

/-- The opcode field of a byte put together from two nibbles is the high one. -/
@[simp] theorem opField_append (op im : Nibble) : opField (op ++ im) = op :=
  BitVec.extractLsb'_append_eq_left

/-- The immediate field of a byte put together from two nibbles is the low one. -/
@[simp] theorem imField_append (op im : Nibble) : imField (op ++ im) = im :=
  BitVec.extractLsb'_append_eq_right

/-- A byte put together from two nibbles, as a number. -/
theorem append_toNat (op im : Nibble) :
    (op ++ im : Byte).toNat = op.toNat * 16 + im.toNat := by
  rw [BitVec.toNat_append, ← Nat.shiftLeft_add_eq_or_of_lt im.isLt, Nat.shiftLeft_eq]

/-- The opcode field is the quotient by 16. -/
theorem opField_toNat (b : Byte) : (opField b).toNat = b.toNat / 16 := by
  have hb := b.isLt
  simp [opField, Nat.shiftRight_eq_div_pow]
  omega

/-- The immediate field is the remainder by 16. -/
theorem imField_toNat (b : Byte) : (imField b).toNat = b.toNat % 16 := by
  simp [imField]

/-- A byte is its two fields. -/
theorem opField_append_imField (b : Byte) : opField b ++ imField b = b := by
  apply BitVec.eq_of_toNat_eq
  rw [append_toNat, opField_toNat, imField_toNat]
  omega

/-! ### The decoder and the encoder -/

/-- The decoder on a byte put together from two nibbles. -/
theorem decode_append (op im : Nibble) : decode (op ++ im) = decodeFields op im := by
  rw [decode, opField_append, imField_append]

/-- Two nibbles with the same four bits are equal. -/
theorem nibble_eq_of_bits {x y : Nibble} (h3 : x.getLsbD 3 = y.getLsbD 3)
    (h2 : x.getLsbD 2 = y.getLsbD 2) (h1 : x.getLsbD 1 = y.getLsbD 1)
    (h0 : x.getLsbD 0 = y.getLsbD 0) : x = y := by
  apply BitVec.eq_of_getLsbD_eq
  intro k hk
  interval_cases k <;> assumption

/-- The opcode map is a table of opcodes: the row the decoder takes has the opcode it was taken for
(R54). -/
theorem opcodeOf_decodeFields (op im : Nibble) : opcodeOf (decodeFields op im) = op := by
  unfold decodeFields
  split <;> apply nibble_eq_of_bits <;> simp_all [opcodeOf]

/-- Every row of the opcode map passes the immediate on or drops it, as R54's column "im used" says. -/
theorem lowNibbleOf_decodeFields (op im : Nibble) :
    lowNibbleOf (decodeFields op im) = if usesImmediate (decodeFields op im) then im else 0 := by
  unfold decodeFields
  split <;> rfl

/-- Under the opcode and the low nibble of an instruction the opcode map holds the instruction. -/
theorem decodeFields_opcodeOf_lowNibbleOf (i : Instr) :
    decodeFields (opcodeOf i) (lowNibbleOf i) = i := by
  cases i <;> simp [decodeFields, opcodeOf, lowNibbleOf]

/-- Under the opcode of an instruction without an immediate every low nibble selects it (R55, R110). -/
theorem decodeFields_opcodeOf_of_not_usesImmediate {i : Instr} (h : usesImmediate i = false)
    (n : Nibble) : decodeFields (opcodeOf i) n = i := by
  cases i with
  | addAIm | movAIm | addBIm | movBIm | outIm | jncIm | jmpIm => cases h
  | movAB | inA | movBA | inB | outB | unassigned8 | unassignedA | unassignedC | unassignedD => rfl

/-- What a byte decodes to has the byte's opcode field. -/
@[simp] theorem opcodeOf_decode (b : Byte) : opcodeOf (decode b) = opField b :=
  opcodeOf_decodeFields _ _

/-- What a byte decodes to has the byte's immediate field where it uses the immediate, and 0 where it
does not. -/
theorem lowNibbleOf_decode (b : Byte) :
    lowNibbleOf (decode b) = if usesImmediate (decode b) then imField b else 0 :=
  lowNibbleOf_decodeFields _ _

/-- The fields of an instruction's word (R51). -/
theorem encodedFields (i : Instr) : Laws.EncodedFields.Statement i :=
  ⟨opField_append _ _, imField_append _ _⟩

/-- Decoding takes encoding back. -/
theorem decode_encode (i : Instr) : decode (encode i) = i := by
  obtain ⟨hop, him⟩ := encodedFields i
  rw [decode, hop, him, decodeFields_opcodeOf_lowNibbleOf]

/-- Encoding takes decoding back where the immediate is used. -/
theorem encode_decode_of_usesImmediate {b : Byte} (h : usesImmediate (decode b) = true) :
    encode (decode b) = b := by
  rw [encode, opcodeOf_decode, lowNibbleOf_decode, if_pos h, opField_append_imField]

/-- Where the immediate is not used, encoding gives back the opcode with low nibble 0. -/
theorem encode_decode_of_not_usesImmediate {b : Byte} (h : usesImmediate (decode b) = false) :
    encode (decode b) = opField b ++ 0#4 := by
  rw [encode, opcodeOf_decode, lowNibbleOf_decode, h]
  rfl

/-- Encoding what a byte decodes to keeps the byte's opcode field. -/
theorem opField_encode_decode (b : Byte) : opField (encode (decode b)) = opField b :=
  (encodedFields (decode b)).1.trans (opcodeOf_decode b)

/-- Under the opcode of a byte whose low nibble is ignored every low nibble decodes alike. -/
theorem decode_of_not_usesImmediate {b : Byte} (h : usesImmediate (decode b) = false) (n : Nibble) :
    decode (opField b ++ n) = decode b := by
  rw [decode_append, ← opcodeOf_decode, decodeFields_opcodeOf_of_not_usesImmediate h]

/-- The unassigned opcodes, as numbers (R56). -/
theorem isUnassigned_iff_opcode (i : Instr) :
    isUnassigned i = true ↔ (opcodeOf i).toNat = 0x8 ∨ (opcodeOf i).toNat = 0xA ∨
      (opcodeOf i).toNat = 0xC ∨ (opcodeOf i).toNat = 0xD := by
  cases i <;> simp [isUnassigned, opcodeOf]

/-! ### The opcode table on numbers, one element of the state per lemma

`im` is any number that is the instruction's immediate where the instruction uses one: the low nibble of
every byte that decodes to it. -/

section OpcodeTable

variable {i : Instr} {im : Nat}

theorem afterInstr_a_toNat (him : usesImmediate i = true → (lowNibbleOf i).toNat = im) (s : State) :
    (afterInstr i s).a.toNat =
      if (opcodeOf i).toNat = 0x0 then (s.a.toNat + im) % 16
      else if (opcodeOf i).toNat = 0x1 then s.b.toNat
      else if (opcodeOf i).toNat = 0x2 then s.inLine.toNat
      else if (opcodeOf i).toNat = 0x3 then im else s.a.toNat := by
  cases i with
  | addAIm v =>
    obtain rfl : v.toNat = im := him rfl
    simp [afterInstr, addInto_spec, adderResult_toNat, Source.value, opcodeOf]
  | movAB | inA => simp [afterInstr, transfer_spec, Source.value, opcodeOf]
  | movAIm v =>
    obtain rfl : v.toNat = im := him rfl
    simp [afterInstr, transfer_spec, Source.value, opcodeOf]
  | movBA | addBIm | inB | movBIm | unassigned8 | outB | unassignedA | outIm | unassignedC
  | unassignedD | jncIm | jmpIm =>
    rw [afterInstr_a_of_not_writesA rfl]
    simp [opcodeOf]

theorem afterInstr_b_toNat (him : usesImmediate i = true → (lowNibbleOf i).toNat = im) (s : State) :
    (afterInstr i s).b.toNat =
      if (opcodeOf i).toNat = 0x4 then s.a.toNat
      else if (opcodeOf i).toNat = 0x5 then (s.b.toNat + im) % 16
      else if (opcodeOf i).toNat = 0x6 then s.inLine.toNat
      else if (opcodeOf i).toNat = 0x7 then im else s.b.toNat := by
  cases i with
  | addBIm v =>
    obtain rfl : v.toNat = im := him rfl
    simp [afterInstr, addInto_spec, adderResult_toNat, Source.value, opcodeOf]
  | movBA | inB => simp [afterInstr, transfer_spec, Source.value, opcodeOf]
  | movBIm v =>
    obtain rfl : v.toNat = im := him rfl
    simp [afterInstr, transfer_spec, Source.value, opcodeOf]
  | addAIm | movAB | inA | movAIm | unassigned8 | outB | unassignedA | outIm | unassignedC
  | unassignedD | jncIm | jmpIm =>
    rw [afterInstr_b_of_not_writesB rfl]
    simp [opcodeOf]

theorem afterInstr_outLine_toNat (him : usesImmediate i = true → (lowNibbleOf i).toNat = im)
    (s : State) :
    (afterInstr i s).outLine.toNat =
      if (opcodeOf i).toNat = 0x9 then s.b.toNat
      else if (opcodeOf i).toNat = 0xB then im else s.outLine.toNat := by
  cases i with
  | outB => simp [afterInstr, transfer_spec, Source.value, opcodeOf]
  | outIm v =>
    obtain rfl : v.toNat = im := him rfl
    simp [afterInstr, transfer_spec, Source.value, opcodeOf]
  | addAIm | movAB | inA | movAIm | movBA | addBIm | inB | movBIm | unassigned8 | unassignedA
  | unassignedC | unassignedD | jncIm | jmpIm =>
    rw [afterInstr_outLine_of_not_writesOut rfl]
    simp [opcodeOf]

theorem afterInstr_c_eq (him : usesImmediate i = true → (lowNibbleOf i).toNat = im) (s : State) :
    (afterInstr i s).c =
      if (opcodeOf i).toNat = 0x0 then decide (15 < s.a.toNat + im)
      else if (opcodeOf i).toNat = 0x5 then decide (15 < s.b.toNat + im)
      else if (opcodeOf i).toNat ∈ [0x8, 0xA, 0xC, 0xD, 0xE, 0xF] then s.c else false := by
  cases i with
  | addAIm v | addBIm v =>
    obtain rfl : v.toNat = im := him rfl
    simp [afterInstr, addInto_spec, adderCarry_eq, Source.value, opcodeOf]
  | jncIm | jmpIm | unassigned8 | unassignedA | unassignedC | unassignedD =>
    rw [afterInstr_c_of_keepsCarry rfl]
    simp [opcodeOf]
  | movAB | inA | movAIm | movBA | inB | movBIm | outB | outIm =>
    rw [afterInstr_c_of_clearsCarry rfl]
    simp [opcodeOf]

/-- Every instruction but a jump advances PC (R61). -/
theorem afterInstr_pc_of_not_jump (h : ∀ v, i ≠ .jncIm v ∧ i ≠ .jmpIm v) (s : State) :
    (afterInstr i s).pc.toNat = (s.pc.toNat + 1) % 16 := by
  rw [← pcPlusOne_toNat]
  cases i with
  | addAIm | addBIm => simp [afterInstr, addInto_spec]
  | movAB | inA | movAIm | movBA | inB | movBIm | outB | outIm => simp [afterInstr, transfer_spec]
  | unassigned8 | unassignedA | unassignedC | unassignedD => rfl
  | jncIm v => exact absurd rfl (h v).1
  | jmpIm v => exact absurd rfl (h v).2

/-- JNC jumps if C is 0 and advances PC if C is 1 (R100). -/
theorem afterInstr_jncIm_pc (v : Nibble) (s : State) :
    (afterInstr (.jncIm v) s).pc.toNat = if s.c then (s.pc.toNat + 1) % 16 else v.toNat := by
  cases h : s.c <;> simp [afterInstr, jumpIfNoCarry_spec, pcPlusOne_toNat, h]

theorem afterInstr_pc_toNat (him : usesImmediate i = true → (lowNibbleOf i).toNat = im) (s : State) :
    (afterInstr i s).pc.toNat =
      if (opcodeOf i).toNat = 0xF then im
      else if (opcodeOf i).toNat = 0xE ∧ s.c = false then im else (s.pc.toNat + 1) % 16 := by
  cases i with
  | jmpIm v => exact him rfl
  | jncIm v =>
    obtain rfl : v.toNat = im := him rfl
    rw [afterInstr_jncIm_pc]
    cases h : s.c <;> simp [opcodeOf]
  | addAIm | movAB | inA | movAIm | movBA | addBIm | inB | movBIm | unassigned8 | outB | unassignedA
  | outIm | unassignedC | unassignedD =>
    rw [afterInstr_pc_of_not_jump (by simp)]
    simp [opcodeOf]

end OpcodeTable

/-! ### Assembly text (R58) -/

/-- The immediate a text of R58 writes: binary in the six characters of `0b` and four digits, decimal
otherwise. It reads `immText` back, by `immOfText_immText`. -/
def immOfText (text : List Char) : Nibble :=
  BitVec.ofNat 4 (if text.length = 6 then digitsValue 2 (text.drop 2) else digitsValue 10 text)

theorem immOfText_immText (r : Radix) (im : Nibble) : immOfText (immText r im) = im := by
  revert im
  cases r <;> decide

/-- No immediate is written as a register's name. -/
theorem immText_ne_register (r : Radix) (im : Nibble) :
    immText r im ≠ ['A'] ∧ immText r im ≠ ['B'] := by
  revert im
  cases r <;> decide

/-- The instruction whose text this is. It reads `asmText` back, by `instrOfText_asmText`: so no text is
that of two instructions. -/
def instrOfText : List Char → Option Instr
  | 'A' :: 'D' :: 'D' :: ' ' :: 'A' :: ',' :: operand => some (.addAIm (immOfText operand))
  | 'A' :: 'D' :: 'D' :: ' ' :: 'B' :: ',' :: operand => some (.addBIm (immOfText operand))
  | 'M' :: 'O' :: 'V' :: ' ' :: 'A' :: ',' :: operand =>
    some (if operand = ['B'] then .movAB else .movAIm (immOfText operand))
  | 'M' :: 'O' :: 'V' :: ' ' :: 'B' :: ',' :: operand =>
    some (if operand = ['A'] then .movBA else .movBIm (immOfText operand))
  | ['I', 'N', ' ', 'A'] => some .inA
  | ['I', 'N', ' ', 'B'] => some .inB
  | 'O' :: 'U' :: 'T' :: ' ' :: operand =>
    some (if operand = ['B'] then .outB else .outIm (immOfText operand))
  | 'J' :: 'N' :: 'C' :: ' ' :: operand => some (.jncIm (immOfText operand))
  | 'J' :: 'M' :: 'P' :: ' ' :: operand => some (.jmpIm (immOfText operand))
  | _ => none

/-- Where a register's name could stand for the immediate, an immediate's text is read as one. -/
theorem ite_register_immText {r : Radix} {im : Nibble} {name : List Char} (h : immText r im ≠ name)
    (i : Instr) (f : Nibble → Instr) :
    (if immText r im = name then i else f (immOfText (immText r im))) = f im := by
  rw [if_neg h, immOfText_immText]

theorem instrOfText_asmText {r : Radix} {i : Instr} {text : List Char}
    (h : asmText r i = some text) : instrOfText text = some i := by
  cases i with
  | unassigned8 | unassignedA | unassignedC | unassignedD => cases h
  | movAB | inA | movBA | inB | outB => cases h; rfl
  | addAIm im => cases h; exact congrArg (some ∘ Instr.addAIm) (immOfText_immText r im)
  | addBIm im => cases h; exact congrArg (some ∘ Instr.addBIm) (immOfText_immText r im)
  | jncIm im => cases h; exact congrArg (some ∘ Instr.jncIm) (immOfText_immText r im)
  | jmpIm im => cases h; exact congrArg (some ∘ Instr.jmpIm) (immOfText_immText r im)
  | movAIm im =>
    cases h; exact congrArg some (ite_register_immText (immText_ne_register r im).2 _ .movAIm)
  | movBIm im =>
    cases h; exact congrArg some (ite_register_immText (immText_ne_register r im).1 _ .movBIm)
  | outIm im =>
    cases h; exact congrArg some (ite_register_immText (immText_ne_register r im).2 _ .outIm)

/-- An opcode without a text is an unassigned one (R56, R58). -/
theorem asmText_eq_none_iff (r : Radix) (i : Instr) :
    asmText r i = none ↔ isUnassigned i = true := by
  cases i <;> simp [asmText, isUnassigned]

/-- An instruction with a text is a defined one. -/
theorem isUnassigned_of_asmText {r : Radix} {i : Instr} {text : List Char}
    (h : asmText r i = some text) : isUnassigned i = false := by
  rw [← Bool.not_eq_true, ← asmText_eq_none_iff r, h]
  nofun

theorem mem_allImmediates (im : Nibble) : im ∈ allImmediates := by
  revert im
  decide

/-- The list the assembler searches lacks no defined instruction. -/
theorem mem_definedInstrs {i : Instr} (h : isUnassigned i = false) : i ∈ definedInstrs := by
  cases i with
  | unassigned8 | unassignedA | unassignedC | unassignedD => cases h
  | movAB | inA | movBA | inB | outB => simp [definedInstrs]
  | addAIm im | movAIm im | addBIm im | movBIm im | outIm im | jncIm im | jmpIm im =>
    simp [definedInstrs, mem_allImmediates]

/-- What a text assembles to has that text, in decimal or in binary. -/
theorem asmText_of_assembleInstr {text : List Char} {i : Instr} (h : assembleInstr text = some i) :
    ∃ r, asmText r i = some text := by
  have hspelled := List.find?_some h
  rw [Bool.or_eq_true, decide_eq_true_eq, decide_eq_true_eq] at hspelled
  obtain hdec | hbin := hspelled
  · exact ⟨.decimal, hdec⟩
  · exact ⟨.binary, hbin⟩

/-- An instruction's text, in either radix, assembles to it: the search finds an instruction with
that text, and there is only one. -/
theorem assembleInstr_asmText {r : Radix} {i : Instr} {text : List Char}
    (h : asmText r i = some text) : assembleInstr text = some i := by
  have hfound : (assembleInstr text).isSome := by
    refine List.find?_isSome.2 ⟨i, mem_definedInstrs (isUnassigned_of_asmText h), ?_⟩
    cases r <;> simp [h]
  obtain ⟨j, hj⟩ := Option.isSome_iff_exists.1 hfound
  obtain ⟨r', hr'⟩ := asmText_of_assembleInstr hj
  have hij : some i = some j := (instrOfText_asmText h).symm.trans (instrOfText_asmText hr')
  exact hj.trans hij.symm

end Sys2Proof.Machine
end

section
/-! The statements about the encoding, 30_encoding.md. -/

namespace Sys2Proof.Machine

/-- Settles O18: the instruction's fields give it back, and the decoder keeps the opcode field and,
where it is used, the immediate field. -/
theorem decodeEncodeAgree : Obligations.DecodeEncodeAgree := by
  refine ⟨fun i _ => decode_encode i, fun b => ⟨?opcode, ?word⟩⟩
  case opcode => rw [← opField_toNat, opField_encode_decode, opField_toNat]
  case word =>
    cases h : usesImmediate (decode b) with
    | true => exact encode_decode_of_usesImmediate h
    | false =>
      refine ⟨?_, decode_of_not_usesImmediate h⟩
      rw [encode_decode_of_not_usesImmediate h, append_toNat, opField_toNat]
      rfl

/-- Settles O19: the fetched byte's quotient and remainder by 16 are the opcode and, where it is used,
the immediate of the instruction executed; then the table, element by element. -/
theorem stepRefinesOpcodeTable : Obligations.StepRefinesOpcodeTable := by
  intro s op im
  have hop : (opcodeOf (nextInstr s)).toNat = op := by
    rw [nextInstr, opcodeOf_decode]
    exact opField_toNat _
  have him : usesImmediate (nextInstr s) = true → (lowNibbleOf (nextInstr s)).toNat = im := by
    intro h
    rw [nextInstr, lowNibbleOf_decode, ← nextInstr, if_pos h]
    exact imField_toNat _
  rw [← hop]
  exact ⟨_, step_eq_afterInstr s, afterInstr_a_toNat him s, afterInstr_b_toNat him s,
    afterInstr_outLine_toNat him s, afterInstr_c_eq him s, afterInstr_pc_toNat him s,
    afterInstr_inLine _ s, sameMemory_afterInstr _ s⟩

/-- Settles O23, by induction on the number of steps: no instruction stops the machine. -/
theorem everyRunCompletes : Obligations.EveryRunCompletes := by
  intro n s
  obtain ⟨t, hrun, -⟩ := runSteps_keeps (P := fun _ => True) (fun _ _ _ => trivial) n s trivial
  exact ⟨t, hrun⟩

/-- Settles O27: the two jumps, and every other instruction. -/
theorem programCounterFollowsInstruction : Obligations.ProgramCounterFollowsInstruction := by
  intro s
  refine ⟨_, step_eq_afterInstr s, ?_⟩
  cases nextInstr s with
  | jmpIm v => rfl
  | jncIm v => exact afterInstr_jncIm_pc v s
  | addAIm | movAB | inA | movAIm | movBA | addBIm | inB | movBIm | unassigned8 | outB | unassignedA
  | outIm | unassignedC | unassignedD => exact afterInstr_pc_of_not_jump (by simp) s

/-- Settles O43: a text has one instruction, which the assembler's search finds. -/
theorem assemblyRoundTrip : Obligations.AssemblyRoundTrip := by
  refine ⟨?assembles, ?spelled, fun i r => (asmText_eq_none_iff r i).2⟩
  case assembles =>
    intro i r
    cases htext : asmText r i with
    | none => exact .inl ((asmText_eq_none_iff r i).1 htext)
    | some text =>
      have hinstr := assembleInstr_asmText htext
      exact .inr ⟨text, rfl, hinstr, congrArg (Option.map encode) hinstr⟩
  case spelled =>
    intro text i h
    obtain ⟨r, hr⟩ := asmText_of_assembleInstr h
    refine ⟨isUnassigned_of_asmText hr, ?_⟩
    cases r with
    | decimal => exact .inl hr
    | binary => exact .inr hr

/-- Settles O15: the decoder run on the words. -/
theorem handwrittenWordsDecode : Obligations.HandwrittenWordsDecode := by
  unfold Obligations.HandwrittenWordsDecode
  decide

/-- Settles O16: under these opcodes the decoder's rows take no immediate. -/
theorem lowNibbleIgnored : Obligations.LowNibbleIgnored := by
  refine ⟨fun n => ?_, rfl, rfl, rfl, rfl, rfl⟩
  simp only [decode_append]
  exact ⟨rfl, rfl, rfl, rfl, rfl⟩

/-- Settles O17: the unassigned opcodes are 0x8, 0xA, 0xC and 0xD, and the opcode is the quotient of the
byte by 16. -/
theorem unassignedBytesAreTheSixtyFour : Obligations.UnassignedBytesAreTheSixtyFour := by
  intro b
  rw [isUnassigned_iff_opcode, opcodeOf_decode, opField_toNat]
  omega

end Sys2Proof.Machine
end

section
/-! SUPPORT. The carry flag: the adder's carry-out as a number (R72), the opcode and the immediate of the
next instruction as numbers (R51, R60), what an ADD and a JNC do with C (R70, R71, R100), and runs that
keep C (R74). -/

namespace Sys2Proof.Machine

/-! ### The carry-out of the adder and of an ADD -/

/-- The carry-out is the sum's fifth bit: the quotient by 16 (R72). -/
theorem adderCarry_toNat (x y : Nibble) : (adderCarry x y).toNat = (x.toNat + y.toNat) / 16 := by
  have hx := x.isLt
  have hy := y.isLt
  rw [adderCarry_eq, Bool.toNat, Bool.cond_decide]
  split_ifs <;> omega

/-- The carry-out of an ADD to A (R70). -/
theorem afterInstr_addAIm_c (im : Nibble) (s : State) :
    (afterInstr (.addAIm im) s).c = decide (15 < s.a.toNat + im.toNat) :=
  afterInstr_c_eq (fun _ => rfl) s

/-- The carry-out of an ADD to B (R71). -/
theorem afterInstr_addBIm_c (im : Nibble) (s : State) :
    (afterInstr (.addBIm im) s).c = decide (15 < s.b.toNat + im.toNat) :=
  afterInstr_c_eq (fun _ => rfl) s

/-! ### The next instruction and the byte at PC -/

/-- The opcode of the next instruction is the quotient of the byte at PC by 16. -/
theorem opcodeOf_nextInstr_toNat (s : State) :
    (opcodeOf (nextInstr s)).toNat = (s.mem.read s.pc).toNat / 16 := by
  rw [nextInstr, opcodeOf_decode, opField_toNat, fetch]

/-- The immediate of the next instruction, where it uses one, is the remainder of the byte at PC
by 16. -/
theorem lowNibbleOf_nextInstr_toNat {s : State} (h : usesImmediate (nextInstr s) = true) :
    (lowNibbleOf (nextInstr s)).toNat = (s.mem.read s.pc).toNat % 16 := by
  rw [nextInstr, lowNibbleOf_decode, ← nextInstr, if_pos h, imField_toNat, fetch]

/-! ### Steps and runs -/

/-- What a step leads to is the state after the next instruction. -/
theorem eq_afterInstr_of_step {s t : State} (h : step s = .next t) : t = afterInstr (nextInstr s) s :=
  (Host.Outcome.next.inj ((step_eq_afterInstr s).symm.trans h)).symm

/-- JNC jumps when C is 0 (R100). -/
theorem afterInstr_jncIm_pc_of_no_carry {s : State} (h : s.c = false) (im : Nibble) :
    (afterInstr (.jncIm im) s).pc = im := by
  simp [afterInstr, jumpIfNoCarry_spec, h]

/-- A run whose every step executes JNC, JMP or an unassigned opcode completes and keeps C (R74). -/
theorem runSteps_c_of_keepsCarry (n : Nat) (s : State)
    (h : ∀ k < n, ∀ u, runSteps k s = .next u → keepsCarry (nextInstr u) = true) :
    ∃ t, runSteps n s = .next t ∧ t.c = s.c := by
  induction n generalizing s with
  | zero => exact ⟨s, runSteps_zero s, rfl⟩
  | succ n ih =>
    have hfirst : keepsCarry (nextInstr s) = true := h 0 n.succ_pos s (runSteps_zero s)
    obtain ⟨t, hrun, hc⟩ := ih (afterInstr (nextInstr s) s) fun k hk u hu =>
      h (k + 1) (Nat.succ_lt_succ hk) u ((runSteps_succ k s).trans hu)
    exact ⟨t, (runSteps_succ n s).trans hrun, hc.trans (afterInstr_c_of_keepsCarry hfirst s)⟩

end Sys2Proof.Machine
end

section
/-! The statements about arithmetic and the carry flag, 40_arith.md. -/

namespace Sys2Proof.Machine

/-- Settles O25: the fetched byte's quotient and remainder by 16 are the opcode and the immediate of the
instruction executed, which is an ADD, keeps C or clears C. -/
theorem carryFollowsOpcodeFunction : Obligations.CarryFollowsOpcodeFunction := by
  intro s
  refine ⟨_, step_eq_afterInstr s, ?_⟩
  have him := lowNibbleOf_nextInstr_toNat (s := s)
  rw [← opcodeOf_nextInstr_toNat]
  cases hi : nextInstr s with
  | addAIm im =>
    rw [hi] at him
    rw [afterInstr_addAIm_c, ← him rfl]
    rfl
  | addBIm im =>
    rw [hi] at him
    rw [afterInstr_addBIm_c, ← him rfl]
    rfl
  | jncIm | jmpIm | unassigned8 | unassignedA | unassignedC | unassignedD =>
    exact afterInstr_c_of_keepsCarry rfl s
  | movAB | inA | movAIm | movBA | inB | movBIm | outB | outIm =>
    exact afterInstr_c_of_clearsCarry rfl s

/-- Settles O26: the run that keeps C is by induction on its length; a MOV, IN or OUT leaves the C = 0 on
which the JNC after it jumps. -/
theorem carryPersistsUntilWritten : Obligations.CarryPersistsUntilWritten := by
  refine ⟨?readsNext, runSteps_c_of_keepsCarry, ?clears, ?jumps⟩
  case readsNext =>
    intro s t im _ hjnc
    refine ⟨_, step_eq_afterInstr t, ?_⟩
    rw [hjnc]
    exact afterInstr_jncIm_pc im t
  case clears => exact fun s h => ⟨_, step_eq_afterInstr s, afterInstr_c_of_clearsCarry h s⟩
  case jumps =>
    intro s t u im _ hclears hstep hjnc
    have hc : u.c = false := by
      rw [eq_afterInstr_of_step hstep]
      exact afterInstr_c_of_clearsCarry hclears t
    refine ⟨_, step_eq_afterInstr u, ?_⟩
    rw [hjnc]
    exact afterInstr_jncIm_pc_of_no_carry hc im

/-- Settles O1: A and C by the opcode table's row, the rest by the frame of an instruction that writes
neither B nor OUT_line. -/
theorem addAImmediateResult : Obligations.AddAImmediateResult := by
  intro im s
  refine ⟨decode_append _ im, _, exec_eq_afterInstr _ s, ?sum, ?carry,
    afterInstr_pc_of_not_jump (by simp) s, afterInstr_b_of_not_writesB rfl s, afterInstr_inLine _ s,
    afterInstr_outLine_of_not_writesOut rfl s, sameMemory_afterInstr _ s⟩
  case sum => exact afterInstr_a_toNat (fun _ => rfl) s
  case carry => rw [afterInstr_addAIm_c, decide_eq_true_iff]

/-- Settles O6: B and C by the opcode table's row, the rest by the frame of an instruction that writes
neither A nor OUT_line. -/
theorem addBImmediateResult : Obligations.AddBImmediateResult := by
  intro im s
  refine ⟨decode_append _ im, _, exec_eq_afterInstr _ s, ?sum, ?carry,
    afterInstr_pc_of_not_jump (by simp) s, afterInstr_a_of_not_writesA rfl s, afterInstr_inLine _ s,
    afterInstr_outLine_of_not_writesOut rfl s, sameMemory_afterInstr _ s⟩
  case sum => exact afterInstr_b_toNat (fun _ => rfl) s
  case carry => rw [afterInstr_addBIm_c, decide_eq_true_iff]

/-- Settles O24: result and carry are the sum's remainder and quotient by 16. -/
theorem adderIsExact : Obligations.AdderIsExact := by
  intro x y
  constructor
  · rw [adderResult_toNat, adderCarry_toNat, Nat.mod_add_div]
  · rw [adderCarry_eq, decide_eq_true_iff]

end Sys2Proof.Machine
end

section
/-! SUPPORT. A data transfer to a register: its value, its cleared carry and its whole frame (R73, R80 to
R83), for every source. -/

namespace Sys2Proof.Machine

/-- A data transfer advances PC (R61). -/
theorem pcAdvanced_transfer (d : Dest) (src : Source) (s : State) : PcAdvanced s (transfer d src s) := by
  obtain ⟨-, -, -, hpc, -⟩ := transfer_spec d src s
  rw [PcAdvanced, hpc, pcPlusOne_toNat]

/-- A data transfer changes no byte of memory (R32). -/
theorem sameMemory_transfer (d : Dest) (src : Source) (s : State) : SameMemory s (transfer d src s) := by
  obtain ⟨hmem, -⟩ := transfer_spec d src s
  intro addr
  rw [hmem]

/-- A data transfer to A. -/
theorem transfer_regA_result (src : Source) (s : State) :
    (transfer .regA src s).a = src.value s ∧ (transfer .regA src s).c = false ∧
    PcAdvanced s (transfer .regA src s) ∧ (transfer .regA src s).b = s.b ∧
    (transfer .regA src s).inLine = s.inLine ∧ (transfer .regA src s).outLine = s.outLine ∧
    SameMemory s (transfer .regA src s) := by
  obtain ⟨-, hin, hc, -, ha, hb, hout⟩ := transfer_spec .regA src s
  exact ⟨ha, hc, pcAdvanced_transfer _ src s, hb, hin, hout, sameMemory_transfer _ src s⟩

/-- A data transfer to B. -/
theorem transfer_regB_result (src : Source) (s : State) :
    (transfer .regB src s).b = src.value s ∧ (transfer .regB src s).c = false ∧
    PcAdvanced s (transfer .regB src s) ∧ (transfer .regB src s).a = s.a ∧
    (transfer .regB src s).inLine = s.inLine ∧ (transfer .regB src s).outLine = s.outLine ∧
    SameMemory s (transfer .regB src s) := by
  obtain ⟨-, hin, hc, -, ha, hb, hout⟩ := transfer_spec .regB src s
  exact ⟨hb, hc, pcAdvanced_transfer _ src s, ha, hin, hout, sameMemory_transfer _ src s⟩

end Sys2Proof.Machine
end

section
/-! The statements about the register transfers, 41_move.md. -/

namespace Sys2Proof.Machine

/-- Settles O2: under opcode 0x1 the low nibble is dropped, and the effect is the transfer of B to A. -/
theorem movABResult : Obligations.MovABResult := by
  intro n s
  exact ⟨decode_append _ n, _, exec_eq_afterInstr _ s, transfer_regA_result .regB s⟩

/-- Settles O4: under opcode 0x3 the low nibble is the immediate, and the effect is its transfer to A. -/
theorem movAImmediateResult : Obligations.MovAImmediateResult := by
  intro im s
  exact ⟨decode_append _ im, _, exec_eq_afterInstr _ s, transfer_regA_result (.imm im) s⟩

/-- Settles O5: under opcode 0x4 the low nibble is dropped, and the effect is the transfer of A to B. -/
theorem movBAResult : Obligations.MovBAResult := by
  intro n s
  exact ⟨decode_append _ n, _, exec_eq_afterInstr _ s, transfer_regB_result .regA s⟩

/-- Settles O8: under opcode 0x7 the low nibble is the immediate, and the effect is its transfer to B. -/
theorem movBImmediateResult : Obligations.MovBImmediateResult := by
  intro im s
  exact ⟨decode_append _ im, _, exec_eq_afterInstr _ s, transfer_regB_result (.imm im) s⟩

end Sys2Proof.Machine
end

section
/-! SUPPORT. A data transfer to OUT_line: the value it latches, its cleared carry and its whole frame (R92
to R94), for every source. -/

namespace Sys2Proof.Machine

/-- A data transfer to OUT_line. -/
theorem transfer_outLine_result (src : Source) (s : State) :
    (transfer .outLine src s).outLine = src.value s ∧ (transfer .outLine src s).c = false ∧
    PcAdvanced s (transfer .outLine src s) ∧ (transfer .outLine src s).a = s.a ∧
    (transfer .outLine src s).b = s.b ∧ (transfer .outLine src s).inLine = s.inLine ∧
    SameMemory s (transfer .outLine src s) := by
  obtain ⟨-, hin, hc, -, ha, hb, hout⟩ := transfer_spec .outLine src s
  exact ⟨hout, hc, pcAdvanced_transfer _ src s, ha, hb, hin, sameMemory_transfer _ src s⟩

end Sys2Proof.Machine
end

section
/-! The statements about input and output, 42_io.md. -/

namespace Sys2Proof.Machine

/-- Settles O3: under opcode 0x2 the low nibble is dropped, and the effect is the transfer of IN_line to
A. -/
theorem inAResult : Obligations.InAResult := by
  intro n s
  exact ⟨decode_append _ n, _, exec_eq_afterInstr _ s, transfer_regA_result .inLine s⟩

/-- Settles O7: under opcode 0x6 the low nibble is dropped, and the effect is the transfer of IN_line to
B. -/
theorem inBResult : Obligations.InBResult := by
  intro n s
  exact ⟨decode_append _ n, _, exec_eq_afterInstr _ s, transfer_regB_result .inLine s⟩

/-- Settles O9: under opcode 0x9 the low nibble is dropped, and the effect is the transfer of B to
OUT_line; every instruction but the two OUTs is outside R10's list of the writers of OUT_line. -/
theorem outBResult : Obligations.OutBResult := by
  constructor
  · intro n s
    exact ⟨decode_append _ n, _, exec_eq_afterInstr _ s, transfer_outLine_result .regB s⟩
  · intro i s
    refine ⟨_, exec_eq_afterInstr i s, ?_⟩
    cases i with
    | outB => exact (transfer_outLine_result .regB s).1
    | outIm im => exact (transfer_outLine_result (.imm im) s).1
    | addAIm | addBIm | movAB | inA | movAIm | movBA | inB | movBIm | jncIm | jmpIm | unassigned8
    | unassignedA | unassignedC | unassignedD => exact afterInstr_outLine_of_not_writesOut rfl s

/-- Settles O10: under opcode 0xB the low nibble is the immediate, and the effect is its transfer to
OUT_line. -/
theorem outImmediateResult : Obligations.OutImmediateResult := by
  intro im s
  exact ⟨decode_append _ im, _, exec_eq_afterInstr _ s, transfer_outLine_result (.imm im) s⟩

end Sys2Proof.Machine
end

section
/-! SUPPORT. The jumps: the PC update each of them is (R100, R101), the jump to the jump's own address and
to its successor, and runs from a state that the next instruction maps to itself (R103). -/

namespace Sys2Proof.Machine

/-! ### The update of PC -/

/-- Setting PC to the value it has changes nothing. -/
@[simp] theorem State.setPc_self (s : State) : s.setPc s.pc = s := rfl

/-- PC + 1 is the one nibble that is PC + 1 modulo 16 (R61). -/
theorem eq_pcPlusOne_of_toNat {im pc : Nibble} (h : im.toNat = (pc.toNat + 1) % 16) :
    im = pcPlusOne pc :=
  BitVec.eq_of_toNat_eq (h.trans (pcPlusOne_toNat pc).symm)

/-- JMP writes PC alone, with its immediate (R101). -/
theorem afterInstr_jmpIm (im : Nibble) (s : State) : afterInstr (.jmpIm im) s = s.setPc im :=
  jump_spec im s

/-- JNC with C = 0 writes PC alone, with its immediate (R100). -/
theorem afterInstr_jncIm_of_no_carry {s : State} (h : s.c = false) (im : Nibble) :
    afterInstr (.jncIm im) s = s.setPc im :=
  (jumpIfNoCarry_spec im s).trans (by rw [if_pos h])

/-- A JMP to the successor address has the effect of an unassigned opcode (R101). -/
theorem afterInstr_jmpIm_eq_unassigned8 {im : Nibble} {s : State}
    (h : im.toNat = (s.pc.toNat + 1) % 16) :
    afterInstr (.jmpIm im) s = afterInstr .unassigned8 s := by
  rw [afterInstr_jmpIm, eq_pcPlusOne_of_toNat h]
  rfl

/-! ### Fixed points -/

/-- A JMP to its own address leads to the state it starts from (R103). -/
theorem afterInstr_of_self_jmp {s : State} (h : nextInstr s = .jmpIm s.pc) :
    afterInstr (nextInstr s) s = s := by
  rw [h, afterInstr_jmpIm, State.setPc_self]

/-- With C = 0, a JNC to its own address leads to the state it starts from (R103). -/
theorem afterInstr_of_self_jnc {s : State} (h : nextInstr s = .jncIm s.pc) (hc : s.c = false) :
    afterInstr (nextInstr s) s = s := by
  rw [h, afterInstr_jncIm_of_no_carry hc, State.setPc_self]

/-- A run from a state that its next instruction leads back to stays there, however long. -/
theorem runSteps_of_fixed {s : State} (h : afterInstr (nextInstr s) s = s) (n : Nat) :
    runSteps n s = .next s := by
  induction n with
  | zero => exact runSteps_zero s
  | succ n ih => rw [runSteps_succ, h, ih]

end Sys2Proof.Machine
end

section
/-! The statements about the jumps, 43_branch.md. -/

namespace Sys2Proof.Machine

/-- Settles O34: either jump sets PC to the value it has, so the state is a fixed point of the step and of
every run. -/
theorem selfJumpIsFixedPoint : Obligations.SelfJumpIsFixedPoint := by
  rintro s (hjmp | ⟨hjnc, hc⟩)
  · exact runSteps_of_fixed (afterInstr_of_self_jmp hjmp)
  · exact runSteps_of_fixed (afterInstr_of_self_jnc hjnc hc)

/-- Settles O12: PC by the case of C, the rest by the frame of an instruction that R10 lists as writing PC
alone; the self-loop is O34's. -/
theorem jncResult : Obligations.JncResult := by
  constructor
  · intro im s
    exact ⟨decode_append _ im, _, exec_eq_afterInstr _ s, afterInstr_jncIm_pc im s,
      afterInstr_a_of_not_writesA rfl s, afterInstr_b_of_not_writesB rfl s,
      afterInstr_c_of_keepsCarry rfl s, afterInstr_inLine _ s,
      afterInstr_outLine_of_not_writesOut rfl s, sameMemory_afterInstr _ s⟩
  · exact fun s hjnc hc => selfJumpIsFixedPoint s (.inr ⟨hjnc, hc⟩)

/-- Settles O13: as O12, without the case of C; a JMP to the successor address sets the PC that an
unassigned opcode sets. -/
theorem jmpResult : Obligations.JmpResult := by
  constructor
  · intro im s
    refine ⟨decode_append _ im, _, exec_eq_afterInstr _ s, rfl, afterInstr_a_of_not_writesA rfl s,
      afterInstr_b_of_not_writesB rfl s, afterInstr_c_of_keepsCarry rfl s, afterInstr_inLine _ s,
      afterInstr_outLine_of_not_writesOut rfl s, sameMemory_afterInstr _ s, fun hsucc => ?successor⟩
    case successor => rw [afterInstr_jmpIm_eq_unassigned8 hsucc, exec_eq_afterInstr]
  · exact fun s hjmp => selfJumpIsFixedPoint s (.inl hjmp)

end Sys2Proof.Machine
end

section
/-! SUPPORT. The unassigned opcodes as one class: their one effect, the bare advance of PC, and the carry
they keep (R56, R110). -/

namespace Sys2Proof.Machine

/-- The advance writes PC + 1 modulo 16 (R61). -/
theorem pcAdvanced_advance (s : State) : PcAdvanced s s.advance := by
  rw [PcAdvanced, State.advance_pc, pcPlusOne_toNat]

/-- An unassigned opcode advances PC, and that is all of its effect (R110). -/
theorem afterInstr_of_isUnassigned {i : Instr} (h : isUnassigned i = true) (s : State) :
    afterInstr i s = s.advance := by
  cases i with
  | unassigned8 | unassignedA | unassignedC | unassignedD => rfl
  | addAIm | movAB | inA | movAIm | movBA | addBIm | inB | movBIm | outB | outIm | jncIm | jmpIm =>
    cases h

/-- An unassigned opcode completes, with PC advanced (R62, R110). -/
theorem exec_of_isUnassigned {i : Instr} (h : isUnassigned i = true) (s : State) :
    exec i s = .next s.advance :=
  (exec_eq_afterInstr i s).trans (congrArg _ (afterInstr_of_isUnassigned h s))

/-- The unassigned opcodes are among the instructions that leave C unchanged (R14). -/
theorem keepsCarry_of_isUnassigned {i : Instr} (h : isUnassigned i = true) : keepsCarry i = true := by
  cases i with
  | unassigned8 | unassignedA | unassignedC | unassignedD => rfl
  | addAIm | movAB | inA | movAIm | movBA | addBIm | inB | movBIm | outB | outIm | jncIm | jmpIm =>
    cases h

end Sys2Proof.Machine
end

section
/-! The statement about the unassigned opcodes, 44_unassigned.md. -/

namespace Sys2Proof.Machine

/-- Settles O11: the one next state is the advance; a run of unassigned opcodes is a run that keeps C
(O26), and the JNC after it reads that C. -/
theorem unassignedOpcodesAdvancePcOnly : Obligations.UnassignedOpcodesAdvancePcOnly := by
  constructor
  · intro n s
    exact ⟨decode_append _ n, decode_append _ n, decode_append _ n, decode_append _ n, s.advance,
      exec_of_isUnassigned rfl s, exec_of_isUnassigned rfl s, exec_of_isUnassigned rfl s,
      exec_of_isUnassigned rfl s, pcAdvanced_advance s, s.advance_a, s.advance_b, s.advance_c,
      s.advance_inLine, s.advance_outLine, fun _ => rfl⟩
  · intro n s hun
    obtain ⟨t, hrun, hc⟩ := runSteps_c_of_keepsCarry n s fun k hk u hu =>
      keepsCarry_of_isUnassigned (hun k hk u hu)
    refine ⟨t, hrun, hc, fun im hjnc => ⟨_, step_eq_afterInstr t, ?_⟩⟩
    rw [hjnc, ← hc]
    exact afterInstr_jncIm_pc im t

end Sys2Proof.Machine
end

section
/-! SUPPORT. The host: what set-input parses and writes (R132), and what each action does to the block, the
mode and the cycle counter (R131, U11). -/

namespace Sys2Proof.Machine

/-! ### The texts of set-input (R132) -/

/-- The model's test for a binary digit. -/
theorem isBinaryDigit_iff (ch : Char) : isBinaryDigit ch = true ↔ ch = '0' ∨ ch = '1' := by
  simp [isBinaryDigit]

/-- The model's test for a decimal digit, by character codes, is the order of characters. -/
theorem isDecimalDigit_iff (ch : Char) : isDecimalDigit ch = true ↔ '0' ≤ ch ∧ ch ≤ '9' := by
  simp only [isDecimalDigit, Bool.and_eq_true, decide_eq_true_eq]
  rfl

/-- The model reads the most significant digit first, Mathlib's `Nat.ofDigits` the least significant. -/
theorem digitsValue_eq_ofDigits (base : Nat) (text : List Char) :
    digitsValue base text = Nat.ofDigits base (text.reverse.map fun ch => ch.toNat - '0'.toNat) := by
  rw [Nat.ofDigits_eq_foldr, List.foldr_map, List.foldr_reverse, digitsValue]
  congr 1
  funext value ch
  show value * base + (ch.toNat - 48) = (ch.toNat - 48) + base * value
  ring

/-- A number is accepted as the 4-bit value it is. -/
theorem acceptInput_eq_some_iff {n : Nat} {v : Nibble} : acceptInput n = some v ↔ v.toNat = n := by
  have hv : v.toNat < 16 := v.isLt
  simp only [acceptInput, immediateInRange, decide_eq_true_eq, Option.ite_none_right_eq_some,
    Option.some_inj, ← BitVec.toNat_inj, BitVec.toNat_ofNat]
  omega

/-- Four characters are read as binary alone. -/
theorem parseInput_eq_some_iff_of_length_eq {text : List Char} (h : text.length = 4) (v : Nibble) :
    parseInput text = some v ↔
      (∀ ch ∈ text, isBinaryDigit ch = true) ∧ v.toNat = digitsValue 2 text := by
  simp only [parseInput, h, if_true, Option.ite_none_right_eq_some, List.all_eq_true,
    acceptInput_eq_some_iff]

/-- Any other text is read as decimal alone, and the empty one is rejected. -/
theorem parseInput_eq_some_iff_of_length_ne {text : List Char} (h : text.length ≠ 4) (v : Nibble) :
    parseInput text = some v ↔
      text ≠ [] ∧ (∀ ch ∈ text, isDecimalDigit ch = true) ∧ v.toNat = digitsValue 10 text := by
  simp only [parseInput, h, if_false, Option.ite_none_right_eq_some, Bool.and_eq_true,
    List.all_eq_true, acceptInput_eq_some_iff, and_assoc, Bool.not_eq_true', List.isEmpty_eq_false_iff]

/-- An accepted value becomes IN_line. -/
theorem setInputText_of_some {text : List Char} {v : Nibble} (h : parseInput text = some v)
    (s : State) : setInputText text s = s.setInLine v := by
  simp only [setInputText, h]

/-- A rejected text changes nothing. -/
theorem setInputText_of_none {text : List Char} (h : parseInput text = none) (s : State) :
    setInputText text s = s := by
  simp only [setInputText, h]

/-- Set-input is an update of IN_line, with its own value if the text is rejected. -/
theorem setInputText_eq_setInLine (text : List Char) (s : State) :
    setInputText text s = s.setInLine ((parseInput text).getD s.inLine) := by
  cases h : parseInput text with
  | none => exact setInputText_of_none h s
  | some v => exact setInputText_of_some h s

/-! ### The step of an iteration (R131) -/

/-- The host after the step of an Auto iteration, before the poll. -/
def ControlLoop.afterAutoStep (l : ControlLoop) : ControlLoop :=
  { l with
    machine := afterInstr (nextInstr l.machine) l.machine
    cycles := if Config.autoCountsCycles then l.cycles + 1 else l.cycles }

/-- An Auto iteration polls the host that has stepped. -/
theorem iterate_eq_poll_afterAutoStep {l : ControlLoop} (hr : l.running = true) (hm : l.mode = .auto)
    (key : Option HostCommand) : l.iterate key = l.afterAutoStep.poll key :=
  iterate_auto hr hm key

/-- The step key in Manual mode makes one step and counts it (R128, R131). -/
theorem iterate_step_of_manual {l : ControlLoop} (hr : l.running = true) (hm : l.mode = .manual) :
    l.iterate (some .step) = .next { l with
      machine := afterInstr (nextInstr l.machine) l.machine
      cycles := l.cycles + 1 } := by
  rw [iterate_manual hr hm]
  exact (perform_step_manual hm).trans (stepMachine_eq true l)

/-- The step key in Auto mode adds no step to that of its iteration (U11). -/
theorem iterate_step_of_auto {l : ControlLoop} (hr : l.running = true) (hm : l.mode = .auto) :
    l.iterate (some .step) = .next l.afterAutoStep.stepKeyInAuto := by
  rw [iterate_eq_poll_afterAutoStep hr hm]
  exact perform_step_auto (l := l.afterAutoStep) hm

/-- The step of an Auto iteration is counted once or not at all (R128, D18). -/
theorem cycles_afterAutoStep (l : ControlLoop) :
    l.cycles ≤ l.afterAutoStep.cycles ∧ l.afterAutoStep.cycles ≤ l.cycles + 1 := by
  unfold ControlLoop.afterAutoStep
  cases Config.autoCountsCycles <;> simp

/-- The step key in Auto mode does not count that step a second time (U11). -/
theorem cycles_stepKeyInAuto_afterAutoStep (l : ControlLoop) :
    l.cycles ≤ l.afterAutoStep.stepKeyInAuto.cycles ∧
      l.afterAutoStep.stepKeyInAuto.cycles ≤ l.cycles + 1 := by
  unfold ControlLoop.stepKeyInAuto ControlLoop.afterAutoStep
  cases Config.autoCountsCycles with
  | true => simp
  | false => cases Config.stepKeyCountsInAuto <;> simp

end Sys2Proof.Machine
end

section
/-! The statements about the host's actions, 60_exceptions.md. -/

namespace Sys2Proof.Machine

/-- Settles O42: the two readings exclude each other by the length of the text. -/
theorem setInputParse : Obligations.SetInputParse := by
  constructor
  · intro text v
    simp only [← digitsValue_eq_ofDigits, ← isBinaryDigit_iff, ← isDecimalDigit_iff]
    by_cases hlen : text.length = 4
    · simp [parseInput_eq_some_iff_of_length_eq hlen, hlen]
    · simp [parseInput_eq_some_iff_of_length_ne hlen, hlen]
  · exact fun text s => ⟨fun _ h => setInputText_of_some h s, fun h => setInputText_of_none h s⟩

/-- Settles O41: a Manual iteration is its key's action alone, an Auto iteration that action after one
step. -/
theorem hostActionsOnTheBlock : Obligations.HostActionsOnTheBlock := by
  refine ⟨?manual, ?auto, fun l hr key => iterate_stopped hr key, fun l => ⟨rfl, rfl, rfl, rfl, rfl⟩,
    ?setInput⟩
  case manual =>
    rintro ⟨block, mode, cycles, image, running⟩ rfl rfl
    exact ⟨_, step_eq_afterInstr block, iterate_step_of_manual rfl rfl, rfl, rfl, rfl⟩
  case auto =>
    rintro ⟨block, mode, cycles, image, running⟩ rfl rfl
    exact ⟨_, _, step_eq_afterInstr block, iterate_eq_poll_afterAutoStep rfl rfl none, rfl, rfl, rfl,
      rfl, iterate_eq_poll_afterAutoStep rfl rfl (some .enterManual),
      iterate_eq_poll_afterAutoStep rfl rfl (some .enterAuto), _, iterate_step_of_auto rfl rfl⟩
  case setInput =>
    intro l text
    refine ⟨_, rfl, ?_, ?_, rfl, rfl, rfl, rfl⟩
    · rw [setInputText_eq_setInLine, State.setInLine_inLine]
    · rw [setInputText_eq_setInLine]
      exact agreeButInLine_setInLine ..

/-- Settles O44, by cases on the polled key: in Auto mode it acts on the host that has stepped, in
Manual mode on the host as it is. -/
theorem hostIterationTakesAtMostOneStep : Obligations.HostIterationTakesAtMostOneStep := by
  constructor
  · intro key l hr hm
    refine ⟨l.afterAutoStep.machine, ?_⟩
    cases key with
    | none =>
      exact ⟨_, step_eq_afterInstr _, iterate_eq_poll_afterAutoStep hr hm none, rfl, rfl, hm,
        cycles_afterAutoStep l⟩
    | some cmd =>
      have hpoll := iterate_eq_poll_afterAutoStep hr hm (some cmd)
      cases cmd with
      | step =>
        exact ⟨_, step_eq_afterInstr _, iterate_step_of_auto hr hm, rfl, rfl, hm,
          cycles_stepKeyInAuto_afterAutoStep l⟩
      | enterAuto | enterManual =>
        exact ⟨_, step_eq_afterInstr _, hpoll, rfl, rfl, rfl, cycles_afterAutoStep l⟩
      | reset => exact ⟨_, step_eq_afterInstr _, hpoll, rfl, rfl, hm, rfl⟩
      | setInput | dumpMemory | help | quit | otherKey =>
        exact ⟨_, step_eq_afterInstr _, hpoll, rfl, rfl, hm, cycles_afterAutoStep l⟩
  · intro key l hr hm
    refine ⟨afterInstr (nextInstr l.machine) l.machine, ?_⟩
    cases key with
    | none => exact ⟨_, step_eq_afterInstr _, iterate_manual hr hm none, rfl, rfl, hm, rfl⟩
    | some cmd =>
      have hpoll := iterate_manual hr hm (some cmd)
      cases cmd with
      | step =>
        exact ⟨_, step_eq_afterInstr _, iterate_step_of_manual hr hm, rfl, rfl, hm, rfl⟩
      | enterAuto | enterManual => exact ⟨_, step_eq_afterInstr _, hpoll, rfl, rfl, rfl, rfl⟩
      | setInput | reset | dumpMemory | help | quit | otherKey =>
        exact ⟨_, step_eq_afterInstr _, hpoll, rfl, rfl, hm, rfl⟩

end Sys2Proof.Machine
end

section
/-! SUPPORT. The canonical form of memory is unique: it is determined by what the addresses read as, so
an image has one memory, and reset one result (R142). -/

namespace Sys2Proof.Machine

/-- The first entry of a memory is what its address reads as. -/
theorem Memory.read_head {k : Nat} (hk : k < 16) (v : Byte) (rest : Memory) :
    Memory.read ((k, v) :: rest) (BitVec.ofNat 4 k) = v :=
  if_pos (Nat.mod_eq_of_lt hk).symm

/-- In a canonical form from `lo` on, only addresses from `lo` on are listed. -/
theorem Memory.le_of_read_ne_unlisted {lo : Nat} {m : Memory} {addr : Nibble}
    (hm : Memory.wfFrom lo m = true) (h : m.read addr ≠ Memory.unlisted) : lo ≤ addr.toNat :=
  Nat.le_of_not_lt fun hlt => h (Memory.read_below hlt hm)

/-- A canonical memory from `lo'` on that reads like one with its first entry at `k` lists `k` too, so
`lo'` is not past `k`. -/
theorem Memory.first_le_of_read_eq {lo lo' k : Nat} {v : Byte} {rest m' : Memory}
    (hm : Memory.wfFrom lo ((k, v) :: rest) = true) (hm' : Memory.wfFrom lo' m' = true)
    (hread : ∀ addr, Memory.read ((k, v) :: rest) addr = m'.read addr) : lo' ≤ k := by
  obtain ⟨-, hk, hv, -⟩ := Memory.wfFrom_cons.1 hm
  have hlisted : m'.read (BitVec.ofNat 4 k) ≠ Memory.unlisted := by
    rwa [← hread, Memory.read_head hk]
  have hle := Memory.le_of_read_ne_unlisted hm' hlisted
  rwa [BitVec.toNat_ofNat, Nat.mod_eq_of_lt hk] at hle

/-- A memory that lists something does not read like the empty one. -/
theorem Memory.not_read_cons_eq_nil {lo k : Nat} {v : Byte} {rest : Memory}
    (hm : Memory.wfFrom lo ((k, v) :: rest) = true) :
    ¬ ∀ addr, Memory.read ((k, v) :: rest) addr = Memory.read [] addr := by
  obtain ⟨-, hk, hv, -⟩ := Memory.wfFrom_cons.1 hm
  exact fun hread => hv ((Memory.read_head hk v rest).symm.trans (hread _))

/-- Canonical memories that read alike and begin with an entry at one address read alike after it. -/
theorem Memory.read_tail_eq {k : Nat} {v v' : Byte} {rest rest' : Memory}
    (hrest : Memory.wfFrom (k + 1) rest = true) (hrest' : Memory.wfFrom (k + 1) rest' = true)
    (hread : ∀ addr, Memory.read ((k, v) :: rest) addr = Memory.read ((k, v') :: rest') addr)
    (addr : Nibble) : rest.read addr = rest'.read addr := by
  by_cases hk : k = addr.toNat
  · rw [Memory.read_below (by omega) hrest, Memory.read_below (by omega) hrest']
  · simpa only [Memory.read_cons, if_neg hk] using hread addr

/-- Two memories in canonical form that read alike are equal. -/
theorem Memory.eq_of_read_eq {lo : Nat} : ∀ {m m' : Memory}, Memory.wfFrom lo m = true →
    Memory.wfFrom lo m' = true → (∀ addr, m.read addr = m'.read addr) → m = m'
  | [], [], _, _, _ => rfl
  | [], _ :: _, _, hm', hread =>
    absurd (fun addr => (hread addr).symm) (Memory.not_read_cons_eq_nil hm')
  | _ :: _, [], hm, _, hread => absurd hread (Memory.not_read_cons_eq_nil hm)
  | (k, v) :: rest, (k', v') :: rest', hm, hm', hread => by
    obtain ⟨-, hk, hv, hrest⟩ := Memory.wfFrom_cons.1 hm
    obtain ⟨-, hk', hv', hrest'⟩ := Memory.wfFrom_cons.1 hm'
    have hle : k ≤ k' := Memory.first_le_of_read_eq hm'
      (Memory.wfFrom_cons.2 ⟨le_refl k, hk, hv, hrest⟩) fun addr => (hread addr).symm
    have hge : k' ≤ k := Memory.first_le_of_read_eq hm
      (Memory.wfFrom_cons.2 ⟨le_refl k', hk', hv', hrest'⟩) hread
    obtain rfl : k = k' := Nat.le_antisymm hle hge
    have hvalue : v = v' := by
      simpa only [Memory.read_head hk] using hread (BitVec.ofNat 4 k)
    rw [hvalue, Memory.eq_of_read_eq hrest hrest' (Memory.read_tail_eq hrest hrest' hread)]

/-- An image has one memory: states that hold it have equal memories. -/
theorem HoldsImage.mem_eq {image : List Byte} {s t : State} (hs : HoldsImage image s)
    (ht : HoldsImage image t) : s.mem = t.mem :=
  Memory.eq_of_read_eq hs.1 ht.1 fun addr => (hs.2 addr).trans (ht.2 addr).symm

/-- Replacing the memory by itself changes nothing. -/
theorem State.setMem_self (s : State) : s.setMem s.mem = s := rfl

/-- Reset over any memory in canonical form is power-on: they differ at most in memory, and both hold
the image. -/
theorem resetMachine_eq_powerOn (image : List Byte) {s : State} (hs : s.mem.wf = true) :
    resetMachine image s = powerOn image := by
  have hmem : s.mem.load image = (powerOn image).mem :=
    (resetMachine_mem image s).symm.trans
      ((resetMachine_holdsImage image hs).mem_eq (powerOn_holdsImage image))
  rw [resetMachine_eq, hmem, State.setMem_self]

end Sys2Proof.Machine
end

section
/-! The statements about reset, 70_reset_and_hazards.md. -/

namespace Sys2Proof.Machine

/-- Settles O37: reset's registers, latches and counter are written as 0, and over a memory in canonical
form it holds the image again. -/
theorem resetZeroesAndReloads : Obligations.ResetZeroesAndReloads := by
  intro l hwf
  refine ⟨_, rfl, rfl, rfl, rfl, rfl, rfl, rfl, rfl, rfl, fun addr => ?_⟩
  have hholds := resetMachine_holdsImage l.image hwf
  exact (hholds.2 addr).trans (imageByte_eq_dite l.image addr.toNat)

/-- Settles O38: reset is power-on over every canonical memory, its own result's included. -/
theorem resetEqualsPowerOn : Obligations.ResetEqualsPowerOn := by
  intro image s hwf
  have hagain : (resetMachine image s).mem.wf = true := (resetMachine_holdsImage image hwf).1
  exact ⟨resetMachine_eq_powerOn image hwf, resetMachine_eq_powerOn image hagain⟩

end Sys2Proof.Machine
end
